-- ==== Sys2Proof/Word.lean ====
section
/-! DEFINITION. The word types of CORE (spec 00_scope.md R9): a byte is 8 bits, an address or a 16-bit
register is 16 bits. Every bit-field, sign-extension and byte-order helper stands in Decode.lean and under
Machine/, not here. -/

namespace Sys2Proof

/-- The addressable unit and the width of the general registers (R9). -/
abbrev Byte := BitVec 8

/-- The width of the register pairs, SP, PC and of an address (R9). -/
abbrev Word := BitVec 16

end Sys2Proof
end

