-- ==== Sys2Proof/Syntax/Operand.lean ====
section
/-! DEFINITION. The operand vocabulary (spec 30_encoding.md R89 to R96) and the register names of the register
file (10_state.md R21, R23), one inductive type each. -/

namespace Sys2Proof

/-- R21: the eight 8-bit registers of the register file. -/
inductive R8 where
  | a | f | b | c | d | e | h | l
deriving DecidableEq, Repr

/-- R23: the six 16-bit registers of the register file. -/
inductive R16 where
  | af | bc | de | hl | sp | pc
deriving DecidableEq, Repr

/-- R90 without code 6: the 8-bit registers an operand field can name. F is not among them (R241). -/
inductive Reg8 where
  | b | c | d | e | h | l | a
deriving DecidableEq, Repr

/-- R90: the operand an `r` field names: a register, or (code 6) the byte of memory at HL. -/
inductive Loc8 where
  | reg (r : Reg8)
  | indHl
deriving DecidableEq, Repr

/-- R122: the second operand of the eight two-operand instructions: `r`, `(HL)` or `d8`. -/
inductive Src8 where
  | loc (x : Loc8)
  | imm (d8 : Byte)
deriving DecidableEq, Repr

/-- R91: the `rp` field, used by `LD rr,d16`, `ADD HL,rr`, `INC rr`, `DEC rr`. -/
inductive RegPair where
  | bc | de | hl | sp
deriving DecidableEq, Repr

/-- R92: the `rp2` field, used by `PUSH` and `POP`. -/
inductive StackPair where
  | bc | de | hl | af
deriving DecidableEq, Repr

/-- R93: the condition field of `JR`, `JP`, `CALL` and `RET`. -/
inductive Cond where
  | nz | z | nc | c
deriving DecidableEq, Repr

end Sys2Proof
end

