-- ==== Sys2Proof/Syntax.lean ====
section
/-! DEFINITION. The instructions of CORE: one constructor for each instruction form of the opcode map (spec
30_encoding.md R98 to R103). An operand that the map spreads over several table rows (a register, a condition,
a bit index) is an argument. Immediates are carried as the bytes of the instruction stream give them (R88). -/

namespace Sys2Proof

inductive Instr where
  -- 45_system.md
  | nop
  | di
  | ei
  | halt
  | stop
  | prefixCb (op2 : Byte)
  | undefined (op : Byte)
  -- 40_alu8.md
  | addA (x : Src8)
  | adcA (x : Src8)
  | subA (x : Src8)
  | sbcA (x : Src8)
  | andA (x : Src8)
  | xorA (x : Src8)
  | orA (x : Src8)
  | cpA (x : Src8)
  | inc8 (x : Loc8)
  | dec8 (x : Loc8)
  | daa
  | cpl
  | scf
  | ccf
  -- 41_alu16.md
  | addHl (rr : RegPair)
  | inc16 (rr : RegPair)
  | dec16 (rr : RegPair)
  | addSp (r8 : Byte)
  | ldHlSp (r8 : Byte)
  -- 42_rotate_shift_bit.md
  | rlca
  | rrca
  | rla
  | rra
  | rlc (x : Loc8)
  | rrc (x : Loc8)
  | rl (x : Loc8)
  | rr (x : Loc8)
  | sla (x : Loc8)
  | sra (x : Loc8)
  | swap (x : Loc8)
  | srl (x : Loc8)
  | bit (b : BitVec 3) (x : Loc8)
  | res (b : BitVec 3) (x : Loc8)
  | setBit (b : BitVec 3) (x : Loc8)
  -- 43_control_flow.md
  | jp (a16 : Word)
  | jpCc (cc : Cond) (a16 : Word)
  | jpHl
  | jr (r8 : Byte)
  | jrCc (cc : Cond) (r8 : Byte)
  | call (a16 : Word)
  | callCc (cc : Cond) (a16 : Word)
  | ret
  | retCc (cc : Cond)
  | reti
  | rst (y : BitVec 3)
  -- 44_load_stack.md
  | ldRR (dst src : Reg8)
  | ldRD8 (r : Reg8) (d8 : Byte)
  | ldRHl (r : Reg8)
  | ldHlR (r : Reg8)
  | ldHlD8 (d8 : Byte)
  | ldABc
  | ldADe
  | ldBcA
  | ldDeA
  | ldAA16 (a16 : Word)
  | ldA16A (a16 : Word)
  | ldhAC
  | ldhCA
  | ldhAA8 (a8 : Byte)
  | ldhA8A (a8 : Byte)
  | ldHliA
  | ldAHli
  | ldHldA
  | ldAHld
  | ldRrD16 (rr : RegPair) (d16 : Word)
  | ldA16Sp (a16 : Word)
  | ldSpHl
  | push (qq : StackPair)
  | pop (qq : StackPair)
deriving DecidableEq, Repr

end Sys2Proof
end

