-- ==== Sys2Proof/WellFormed.lean ====
section
/-! DEFINITION. Which terms of Instr are instructions of CORE. The operand types of Syntax/Operand.lean already
keep out what no field can name (F as an operand, SP pushed, a bit index of 8), so two checks are left: an
`undefined` names one of the eleven bytes without a table entry (spec 30_encoding.md R103), and PREFIX, "not an
instruction of its own" (45_system.md R287), is not a term the decoder hands to the machine: the CB-space
instruction its second byte names is. -/

namespace Sys2Proof

/-- R103: the eleven unprefixed bytes that have no table entry. -/
def undefinedBytes : List Byte :=
  [0xD3#8, 0xDB#8, 0xDD#8, 0xE3#8, 0xE4#8, 0xEB#8, 0xEC#8, 0xED#8, 0xF4#8, 0xFC#8, 0xFD#8]

/-- R103: the twelve bytes that fail to decode: the eleven, and STOP's 0x10. -/
def failingBytes : List Byte := 0x10#8 :: undefinedBytes

/-- The well-formedness check (R103, R287). -/
def Instr.wellFormed : Instr → Bool
  | .undefined op => undefinedBytes.contains op
  | .prefixCb _ => false
  | _ => true

end Sys2Proof
end

