-- ==== Sys2Proof/Decode.lean ====
section
/-! DEFINITION. From bytes to instructions (spec 30_encoding.md), total, and back. The opcode map is decoded by
its fields x, y, z, p, q (R81) and the field tables (R90 to R96, R98 to R102); the number of immediate bytes by
the list of R82. After the decoder stands the encoder, written from the same tables. -/

namespace Sys2Proof

/-! ## Fields of an opcode byte (R81) -/

def opX (op : Byte) : BitVec 2 := op.extractLsb' 6 2
def opY (op : Byte) : BitVec 3 := op.extractLsb' 3 3
def opZ (op : Byte) : BitVec 3 := op.extractLsb' 0 3
def opP (op : Byte) : BitVec 2 := op.extractLsb' 4 2
def opQ (op : Byte) : Bool := op.getLsbD 3

/-- R81, R87: `imm16 = byte2 ++ byte1`, the high byte second in the instruction stream. -/
def imm16 (lo hi : Byte) : Word := hi ++ lo

/-! ## Field tables (R90 to R96) -/

/-- R90. -/
def loc8Of (code : BitVec 3) : Loc8 :=
  match code.toNat with
  | 0 => .reg .b
  | 1 => .reg .c
  | 2 => .reg .d
  | 3 => .reg .e
  | 4 => .reg .h
  | 5 => .reg .l
  | 6 => .indHl
  | _ => .reg .a

/-- R91. -/
def regPairOf (p : BitVec 2) : RegPair :=
  match p.toNat with
  | 0 => .bc
  | 1 => .de
  | 2 => .hl
  | _ => .sp

/-- R92. -/
def stackPairOf (p : BitVec 2) : StackPair :=
  match p.toNat with
  | 0 => .bc
  | 1 => .de
  | 2 => .hl
  | _ => .af

/-- R93: the condition is `y[1:0]`. -/
def condOf (y : BitVec 3) : Cond :=
  match y.toNat % 4 with
  | 0 => .nz
  | 1 => .z
  | 2 => .nc
  | _ => .c

/-- R94: the ALU operation of x = 2, and of x = 3 with z = 6. -/
def aluOf (y : BitVec 3) (x : Src8) : Instr :=
  match y.toNat with
  | 0 => .addA x
  | 1 => .adcA x
  | 2 => .subA x
  | 3 => .sbcA x
  | 4 => .andA x
  | 5 => .xorA x
  | 6 => .orA x
  | _ => .cpA x

/-- R95: the rotate or shift of CB space, x = 0. -/
def rotOf (y : BitVec 3) (x : Loc8) : Instr :=
  match y.toNat with
  | 0 => .rlc x
  | 1 => .rrc x
  | 2 => .rl x
  | 3 => .rr x
  | 4 => .sla x
  | 5 => .sra x
  | 6 => .swap x
  | _ => .srl x

/-! ## Lengths (R82) -/

/-- R82: the first bytes of format U16. -/
def u16Opcodes : List Byte :=
  [0x01#8, 0x11#8, 0x21#8, 0x31#8, 0x08#8, 0xC2#8, 0xC3#8, 0xC4#8, 0xCA#8, 0xCC#8, 0xCD#8, 0xD2#8, 0xD4#8,
    0xDA#8, 0xDC#8, 0xEA#8, 0xFA#8]

/-- R82: the first bytes of format U8. -/
def u8Opcodes : List Byte :=
  [0x06#8, 0x0E#8, 0x16#8, 0x1E#8, 0x26#8, 0x2E#8, 0x36#8, 0x3E#8, 0x18#8, 0x20#8, 0x28#8, 0x30#8, 0x38#8,
    0xC6#8, 0xCE#8, 0xD6#8, 0xDE#8, 0xE6#8, 0xEE#8, 0xF6#8, 0xFE#8, 0xE0#8, 0xE8#8, 0xF0#8, 0xF8#8]

/-- R82: how many bytes the step fetches after the first byte. A byte that fails to decode fetches none. -/
def bytesAfter (op : Byte) : Nat :=
  if op == 0xCB#8 then 1
  else if u16Opcodes.contains op then 2
  else if u8Opcodes.contains op then 1
  else 0

/-! ## The unprefixed table (R98 to R101, R103) -/

/-- R98: x = 0. -/
def decodeX0 (op b1 b2 : Byte) : Instr :=
  match (opZ op).toNat with
  | 0 =>
    match (opY op).toNat with
    | 0 => .nop
    | 1 => .ldA16Sp (imm16 b1 b2)
    | 2 => .stop
    | 3 => .jr b1
    | _ => .jrCc (condOf (opY op)) b1
  | 1 => if opQ op then .addHl (regPairOf (opP op)) else .ldRrD16 (regPairOf (opP op)) (imm16 b1 b2)
  | 2 =>
    match (opQ op), (opP op).toNat with
    | false, 0 => .ldBcA
    | false, 1 => .ldDeA
    | false, 2 => .ldHliA
    | false, _ => .ldHldA
    | true, 0 => .ldABc
    | true, 1 => .ldADe
    | true, 2 => .ldAHli
    | true, _ => .ldAHld
  | 3 => if opQ op then .dec16 (regPairOf (opP op)) else .inc16 (regPairOf (opP op))
  | 4 => .inc8 (loc8Of (opY op))
  | 5 => .dec8 (loc8Of (opY op))
  | 6 =>
    match loc8Of (opY op) with
    | .reg r => .ldRD8 r b1
    | .indHl => .ldHlD8 b1
  | _ =>
    match (opY op).toNat with
    | 0 => .rlca
    | 1 => .rrca
    | 2 => .rla
    | 3 => .rra
    | 4 => .daa
    | 5 => .cpl
    | 6 => .scf
    | _ => .ccf

/-- R99: x = 1; `HALT` stands where `LD (HL),(HL)` would. -/
def decodeX1 (op : Byte) : Instr :=
  match loc8Of (opY op), loc8Of (opZ op) with
  | .reg dst, .reg src => .ldRR dst src
  | .reg dst, .indHl => .ldRHl dst
  | .indHl, .reg src => .ldHlR src
  | .indHl, .indHl => .halt

/-- R101, R103: x = 3. -/
def decodeX3 (op b1 b2 : Byte) : Instr :=
  match (opZ op).toNat with
  | 0 =>
    match (opY op).toNat with
    | 4 => .ldhA8A b1
    | 5 => .addSp b1
    | 6 => .ldhAA8 b1
    | 7 => .ldHlSp b1
    | _ => .retCc (condOf (opY op))
  | 1 =>
    match (opQ op), (opP op).toNat with
    | false, _ => .pop (stackPairOf (opP op))
    | true, 0 => .ret
    | true, 1 => .reti
    | true, 2 => .jpHl
    | true, _ => .ldSpHl
  | 2 =>
    match (opY op).toNat with
    | 4 => .ldhCA
    | 5 => .ldA16A (imm16 b1 b2)
    | 6 => .ldhAC
    | 7 => .ldAA16 (imm16 b1 b2)
    | _ => .jpCc (condOf (opY op)) (imm16 b1 b2)
  | 3 =>
    match (opY op).toNat with
    | 0 => .jp (imm16 b1 b2)
    | 1 => .prefixCb b1
    | 6 => .di
    | 7 => .ei
    | _ => .undefined op
  | 4 => if opY op < 4#3 then .callCc (condOf (opY op)) (imm16 b1 b2) else .undefined op
  | 5 =>
    match (opQ op), (opP op).toNat with
    | false, _ => .push (stackPairOf (opP op))
    | true, 0 => .call (imm16 b1 b2)
    | true, _ => .undefined op
  | 6 => aluOf (opY op) (.imm b1)
  | _ => .rst (opY op)

/-- The entry of the unprefixed table for `op`, with the two bytes that follow it in the instruction stream (an
entry that has no such byte ignores it). The entry of 0xCB is PREFIX (R83). -/
def decodeUnprefixed (op b1 b2 : Byte) : Instr :=
  match (opX op).toNat with
  | 0 => decodeX0 op b1 b2
  | 1 => decodeX1 op
  | 2 => aluOf (opY op) (.loc (loc8Of (opZ op)))
  | _ => decodeX3 op b1 b2

/-- R102: the CB-space table. All 256 bytes are defined. -/
def decodeCb (op2 : Byte) : Instr :=
  match (opX op2).toNat with
  | 0 => rotOf (opY op2) (loc8Of (opZ op2))
  | 1 => .bit (opY op2) (loc8Of (opZ op2))
  | 2 => .res (opY op2) (loc8Of (opZ op2))
  | _ => .setBit (opY op2) (loc8Of (opZ op2))

/-- R281: the instruction whose first byte is `b0`: the CB table if it is the 0xCB byte, else the unprefixed one. -/
def decodeBytes (b0 b1 b2 : Byte) : Instr :=
  if b0 = 0xCB#8 then decodeCb b1 else decodeUnprefixed b0 b1 b2

/-- Why a list of bytes is no instruction: it ends before the instruction does. -/
inductive DecodeError where
  /-- There is no byte at all. -/
  | noByte
  /-- The list ends inside the instruction that `op` begins. -/
  | truncated (op : Byte)
deriving DecidableEq, Repr

/-- The first instruction of a list of bytes, and the bytes after it (R81, R82, R281). Total: a byte that fails
to decode is the instruction `stop` or `undefined`, whose meaning is the decode failure (R286, R288). -/
def decode : List Byte → Except DecodeError (Instr × List Byte)
  | [] => .error .noByte
  | b0 :: rest =>
    match bytesAfter b0, rest with
    | 0, rest => .ok (decodeBytes b0 0#8 0#8, rest)
    | 1, b1 :: rest => .ok (decodeBytes b0 b1 0#8, rest)
    | 2, b1 :: b2 :: rest => .ok (decodeBytes b0 b1 b2, rest)
    | _, _ => .error (.truncated b0)

/-! ## A table word, as the opcode table numbers its bits -/

/-- The three bytes, in address order, of the instruction whose bits are `w`. An `unprefixed` row has 8 bits, the
first byte; the bytes after it are 0. A `cbprefixed` row is the 16-bit number `byte0 ++ byte1` with byte0 = 0xCB
(R108: its match is `0xCB ++ second byte`). Any other number is read with its first byte in bits 7..0. -/
def tableBytes (nbits w : Nat) : Byte × Byte × Byte :=
  if nbits = 16 ∧ w / 256 % 256 = 0xCB then (0xCB#8, BitVec.ofNat 8 w, 0#8)
  else (BitVec.ofNat 8 w, BitVec.ofNat 8 (w / 256), BitVec.ofNat 8 (w / 65536))

/-- What the decoder reads for a row of the opcode table. A row of 8 bits is an entry of the unprefixed table (for
0xCB: PREFIX); a longer word is decoded as the step decodes it. -/
def decodeTableWord (nbits w : Nat) : Option Instr :=
  let bytes := tableBytes nbits w
  if nbits ≤ 8 then some (decodeUnprefixed bytes.1 bytes.2.1 bytes.2.2)
  else some (decodeBytes bytes.1 bytes.2.1 bytes.2.2)

/-! ## The encoder -/

def immLo (w : Word) : Byte := w.extractLsb' 0 8
def immHi (w : Word) : Byte := w.extractLsb' 8 8

/-- R90. -/
def Reg8.code : Reg8 → BitVec 3
  | .b => 0#3
  | .c => 1#3
  | .d => 2#3
  | .e => 3#3
  | .h => 4#3
  | .l => 5#3
  | .a => 7#3

/-- R90. -/
def Loc8.code : Loc8 → BitVec 3
  | .reg r => r.code
  | .indHl => 6#3

/-- R91. -/
def RegPair.code : RegPair → BitVec 2
  | .bc => 0#2
  | .de => 1#2
  | .hl => 2#2
  | .sp => 3#2

/-- R92. -/
def StackPair.code : StackPair → BitVec 2
  | .bc => 0#2
  | .de => 1#2
  | .hl => 2#2
  | .af => 3#2

/-- R93. -/
def Cond.code : Cond → BitVec 2
  | .nz => 0#2
  | .z => 1#2
  | .nc => 2#2
  | .c => 3#2

/-- R81: the byte with the fields x, y, z. -/
def xyz (x : BitVec 2) (y z : BitVec 3) : Byte := x ++ y ++ z

/-- R81: the byte with the fields x, p, q, z. -/
def xpqz (x p : BitVec 2) (q : BitVec 1) (z : BitVec 3) : Byte := x ++ p ++ q ++ z

/-- R100, R101: an ALU instruction with operation field `y`. -/
def encodeAlu (y : BitVec 3) : Src8 → List Byte
  | .loc x => [xyz 2#2 y x.code]
  | .imm d8 => [xyz 3#2 y 6#3, d8]

/-- R102: a CB-space instruction. -/
def encodeCb (x : BitVec 2) (y : BitVec 3) (o : Loc8) : List Byte := [0xCB#8, xyz x y o.code]

/-- The bytes of an instruction, in address order (R81, R98 to R103). -/
def encode : Instr → List Byte
  | .nop => [0x00#8]
  | .di => [0xF3#8]
  | .ei => [0xFB#8]
  | .halt => [0x76#8]
  | .stop => [0x10#8]
  | .prefixCb op2 => [0xCB#8, op2]
  | .undefined op => [op]
  | .addA x => encodeAlu 0#3 x
  | .adcA x => encodeAlu 1#3 x
  | .subA x => encodeAlu 2#3 x
  | .sbcA x => encodeAlu 3#3 x
  | .andA x => encodeAlu 4#3 x
  | .xorA x => encodeAlu 5#3 x
  | .orA x => encodeAlu 6#3 x
  | .cpA x => encodeAlu 7#3 x
  | .inc8 x => [xyz 0#2 x.code 4#3]
  | .dec8 x => [xyz 0#2 x.code 5#3]
  | .daa => [0x27#8]
  | .cpl => [0x2F#8]
  | .scf => [0x37#8]
  | .ccf => [0x3F#8]
  | .addHl rr => [xpqz 0#2 rr.code 1#1 1#3]
  | .inc16 rr => [xpqz 0#2 rr.code 0#1 3#3]
  | .dec16 rr => [xpqz 0#2 rr.code 1#1 3#3]
  | .addSp r8 => [0xE8#8, r8]
  | .ldHlSp r8 => [0xF8#8, r8]
  | .rlca => [0x07#8]
  | .rrca => [0x0F#8]
  | .rla => [0x17#8]
  | .rra => [0x1F#8]
  | .rlc x => encodeCb 0#2 0#3 x
  | .rrc x => encodeCb 0#2 1#3 x
  | .rl x => encodeCb 0#2 2#3 x
  | .rr x => encodeCb 0#2 3#3 x
  | .sla x => encodeCb 0#2 4#3 x
  | .sra x => encodeCb 0#2 5#3 x
  | .swap x => encodeCb 0#2 6#3 x
  | .srl x => encodeCb 0#2 7#3 x
  | .bit b x => encodeCb 1#2 b x
  | .res b x => encodeCb 2#2 b x
  | .setBit b x => encodeCb 3#2 b x
  | .jp a16 => [0xC3#8, immLo a16, immHi a16]
  | .jpCc cc a16 => [xyz 3#2 (0#1 ++ cc.code) 2#3, immLo a16, immHi a16]
  | .jpHl => [0xE9#8]
  | .jr r8 => [0x18#8, r8]
  | .jrCc cc r8 => [xyz 0#2 (1#1 ++ cc.code) 0#3, r8]
  | .call a16 => [0xCD#8, immLo a16, immHi a16]
  | .callCc cc a16 => [xyz 3#2 (0#1 ++ cc.code) 4#3, immLo a16, immHi a16]
  | .ret => [0xC9#8]
  | .retCc cc => [xyz 3#2 (0#1 ++ cc.code) 0#3]
  | .reti => [0xD9#8]
  | .rst y => [xyz 3#2 y 7#3]
  | .ldRR dst src => [xyz 1#2 dst.code src.code]
  | .ldRD8 r d8 => [xyz 0#2 r.code 6#3, d8]
  | .ldRHl r => [xyz 1#2 r.code 6#3]
  | .ldHlR r => [xyz 1#2 6#3 r.code]
  | .ldHlD8 d8 => [0x36#8, d8]
  | .ldABc => [0x0A#8]
  | .ldADe => [0x1A#8]
  | .ldBcA => [0x02#8]
  | .ldDeA => [0x12#8]
  | .ldAA16 a16 => [0xFA#8, immLo a16, immHi a16]
  | .ldA16A a16 => [0xEA#8, immLo a16, immHi a16]
  | .ldhAC => [0xF2#8]
  | .ldhCA => [0xE2#8]
  | .ldhAA8 a8 => [0xF0#8, a8]
  | .ldhA8A a8 => [0xE0#8, a8]
  | .ldHliA => [0x22#8]
  | .ldAHli => [0x2A#8]
  | .ldHldA => [0x32#8]
  | .ldAHld => [0x3A#8]
  | .ldRrD16 rr d16 => [xpqz 0#2 rr.code 0#1 1#3, immLo d16, immHi d16]
  | .ldA16Sp a16 => [0x08#8, immLo a16, immHi a16]
  | .ldSpHl => [0xF9#8]
  | .push qq => [xpqz 3#2 qq.code 0#1 5#3]
  | .pop qq => [xpqz 3#2 qq.code 0#1 1#3]

end Sys2Proof
end

