-- ==== Sys2Proof/Config.lean ====
section
/-! DEFINITION. The two open parameters of CORE (spec 00_scope.md R10, 92_eei_decisions.md D3 and D18). They
are fixed for an instance and held, constant, in State, so that every statement about a step holds for every
legal value. No rule of the spec leaves a result open, so there is no free value here. -/

namespace Sys2Proof

/-- R10, R37: which of the two documented register files reset leaves. -/
inductive ResetProfile where
  | zero
  | postboot
deriving DecidableEq, Repr

/-- R10, R52: whether instruction-stream reads and data accesses reach one memory or two. -/
inductive FetchSpace where
  | unified
  | split
deriving DecidableEq, Repr

/-- The configuration of one instance of CORE. -/
structure Config where
  resetProfile : ResetProfile
  fetchSpace : FetchSpace
deriving DecidableEq, Repr

/-- R10: the default of each parameter, as the spec chooses it. -/
def Config.default : Config := { resetProfile := .zero, fetchSpace := .unified }

end Sys2Proof
end

