-- ==== Sys2Proof/Machine/State.lean ====
section
/-! DEFINITION. The state of CORE (spec 10_state.md R20), the memory behind its bus, its configuration and the
record of its bus ports; the reasons a step can stop; the state after reset (R37). -/

namespace Sys2Proof.Machine

/-- The bytes of a memory, by address: strictly rising addresses, no byte equal to what an unlisted address reads
as (Memory.lean says what that is, and `Memory.wf` that the form holds). -/
abbrev Memory := List Host.Cell

/-- One bus access (R8, R50 to R54): an instruction-stream read (`ifetch` and `rd` asserted), a data read (`rd`),
or a data write (`wr`). -/
inductive BusAccess where
  | ifetch (addr : Word) (rdata : Byte)
  | read (addr : Word) (rdata : Byte)
  | write (addr : Word) (wdata : Byte)
deriving DecidableEq, Repr

structure State where
  /-- R10: the parameters of this instance; no step and no reset changes them. -/
  config : Config
  /-- R21, R25: A, the high half of AF. -/
  a : Byte
  /-- R26, R27: F, the low half of AF; bits 7..4 are Z N H C, bits 3..0 are hardwired to 0. -/
  f : Byte
  /-- R25: the halves of BC. -/
  b : Byte
  c : Byte
  /-- R25: the halves of DE. -/
  d : Byte
  e : Byte
  /-- R25: the halves of HL. -/
  h : Byte
  l : Byte
  /-- R31: the address of the most recently pushed byte. -/
  sp : Word
  /-- R30: the address of the next instruction-stream byte. -/
  pc : Word
  /-- R33: the interrupt master enable. -/
  ime : Bool
  /-- R34: the dispatcher state, `true` for `halted`. -/
  halted : Bool
  /-- R50, R65: the data memory behind the bus; the instruction memory too when FetchSpace is `unified`. -/
  mem : Memory
  /-- R52, R346: the instruction memory when FetchSpace is `split`; not used when it is `unified`. -/
  imem : Memory
  /-- The model's record of the bus ports (R6, R8): the accesses of the step just completed, oldest first.
  No rule reads it. -/
  bus : List BusAccess
deriving DecidableEq, Repr

/-- The exceptional outcomes of a step (R300: the four kinds are the complete list). After a fault the state is
the one before the step (R301). -/
inductive Fault where
  /-- R301: a first byte without a table entry. Raised by the meanings of `stop` (R286) and `undefined` (R288) and by
  nothing else. Safe: it is the outcome the spec gives. -/
  | unknownOpcode (byte : Byte)
  /-- R300: named by the taxonomy. Raised by nobody: it cannot occur with the fixed decoder (R303). Safe. -/
  | unknownOperandName (name : String)
  /-- R300: named by the taxonomy. Raised by nobody (R303). Safe. -/
  | invalidOperandWidth (expected got : Nat)
  /-- R300: named by the taxonomy. Raised by nobody (R303). Safe. -/
  | invalidRegisterForOperation (name : String)
deriving DecidableEq, Repr

inductive Refusal where
  /-- An instruction without a meaning in this model. Raised by nobody: every arm of `exec` has a meaning. Safe. -/
  | notModelled (mnemonic : String)
deriving DecidableEq, Repr

/-- What a meaning answers. -/
abbrev Result := Host.Outcome State Fault Refusal

/-- R37, R340: every register after reset, for each profile. Memory lists nothing: what stands in it is the
environment's. IME and `halted` are 0 by the spec's own decision D4. -/
def State.resetFor (config : Config) : State :=
  match config.resetProfile with
  | .zero =>
    { config, a := 0x00#8, f := 0x00#8, b := 0x00#8, c := 0x00#8, d := 0x00#8, e := 0x00#8, h := 0x00#8,
      l := 0x00#8, sp := 0x0000#16, pc := 0x0000#16, ime := false, halted := false, mem := [], imem := [],
      bus := [] }
  | .postboot =>
    { config, a := 0x01#8, f := 0xB0#8, b := 0x00#8, c := 0x13#8, d := 0x00#8, e := 0xD8#8, h := 0x01#8,
      l := 0x4D#8, sp := 0xFFFE#16, pc := 0x0100#16, ime := false, halted := false, mem := [], imem := [],
      bus := [] }

/-- The machine right after reset, with the parameters at the spec's defaults (R10). -/
def State.reset : State := State.resetFor Config.default

end Sys2Proof.Machine
end

