-- ==== Sys2Proof/Machine/Memory.lean ====
section
/-! DEFINITION. A memory of 65536 bytes (spec 20_memory.md R50) as a list in one canonical form. -/

namespace Sys2Proof.Machine

/-- What an address that the list does not hold reads as: a byte the environment never wrote. DESIGN CHOICE
(entry 1), unsafe: the spec leaves it to the environment (R53); 95_test_vectors.md runs with 0x00. -/
def Memory.unlisted : Byte := 0x00#8

/-- The size of the address space (R50). -/
def Memory.size : Nat := 65536

/-- The byte at an address. -/
def Memory.read : Memory → Nat → Byte
  | [], _ => Memory.unlisted
  | cell :: rest, addr => if cell.1 = addr then cell.2 else Memory.read rest addr

/-- The memory with `v` at `addr`, every other byte as before. Writing what an unlisted address reads as removes
the entry, so that equal memories are equal lists. -/
def Memory.write : Memory → Nat → Byte → Memory
  | [], addr, v => if v = Memory.unlisted then [] else [(addr, v)]
  | cell :: rest, addr, v =>
    if cell.1 < addr then cell :: Memory.write rest addr v
    else if cell.1 = addr then (if v = Memory.unlisted then rest else (addr, v) :: rest)
    else if v = Memory.unlisted then cell :: rest
    else (addr, v) :: cell :: rest

/-- The canonical form from the address `low` on. -/
def Memory.wfFrom : Nat → Memory → Bool
  | _, [] => true
  | low, cell :: rest =>
    decide (low ≤ cell.1) && decide (cell.1 < Memory.size) && decide (cell.2 ≠ Memory.unlisted)
      && Memory.wfFrom (cell.1 + 1) rest

/-- The canonical form: strictly rising addresses inside the address space, no entry that an unlisted address
would read as. -/
def Memory.wf (m : Memory) : Bool := Memory.wfFrom 0 m

end Sys2Proof.Machine
end

