-- ==== Sys2Proof/Machine/Ops.lean ====
section
/-! DEFINITION. The shared operations over registers, memory, the instruction stream and the stack: the
primitives of spec 00_scope.md R13, each in one place; and the one exceptional outcome (60_exceptions.md R301). -/

namespace Sys2Proof.Machine

/-! ## Bits and bytes (R11 to R13) -/

/-- R11: `a ++ b`, the high byte first. -/
def cat (hi lo : Byte) : Word := hi ++ lo

/-- R11: the high byte `v[15:8]`. -/
def hiByte (v : Word) : Byte := v.extractLsb' 8 8

/-- R11: the low byte `v[7:0]`. -/
def loByte (v : Word) : Byte := v.extractLsb' 0 8

/-- R13: sign extension of a byte to 16 bits. -/
def sext16 (v : Byte) : Word := v.signExtend 16

/-- R13: zero extension of a byte to 16 bits. -/
def zext16 (v : Byte) : Word := v.setWidth 16

/-- R88, R272: `0xFF00 + offset`, the address of `LDH`. -/
def highPage (offset : Byte) : Word := 0xFF00#16 + zext16 offset

/-- R26: the bits of F that exist. -/
def fMask : Byte := 0xF0#8

/-! ## Registers (R21 to R26) -/

/-- R21: `r8[X]`. Bits 3..0 of F read as 0 (R26). -/
def State.r8 (s : State) : R8 → Byte
  | .a => s.a
  | .f => s.f &&& fMask
  | .b => s.b
  | .c => s.c
  | .d => s.d
  | .e => s.e
  | .h => s.h
  | .l => s.l

/-- R22: `r8[X] <- v`. Bits 3..0 of F discard what is written (R26). -/
def State.setR8 (s : State) (x : R8) (v : Byte) : State :=
  match x with
  | .a => { s with a := v }
  | .f => { s with f := v &&& fMask }
  | .b => { s with b := v }
  | .c => { s with c := v }
  | .d => { s with d := v }
  | .e => { s with e := v }
  | .h => { s with h := v }
  | .l => { s with l := v }

/-- R23, R25: `r16[XY]`; a pair is its two halves. -/
def State.r16 (s : State) : R16 → Word
  | .af => cat (s.r8 .a) (s.r8 .f)
  | .bc => cat (s.r8 .b) (s.r8 .c)
  | .de => cat (s.r8 .d) (s.r8 .e)
  | .hl => cat (s.r8 .h) (s.r8 .l)
  | .sp => s.sp
  | .pc => s.pc

/-- R24 to R26: `r16[XY] <- v`. -/
def State.setR16 (s : State) (x : R16) (v : Word) : State :=
  match x with
  | .af => (s.setR8 .a (hiByte v)).setR8 .f (loByte v)
  | .bc => (s.setR8 .b (hiByte v)).setR8 .c (loByte v)
  | .de => (s.setR8 .d (hiByte v)).setR8 .e (loByte v)
  | .hl => (s.setR8 .h (hiByte v)).setR8 .l (loByte v)
  | .sp => { s with sp := v }
  | .pc => { s with pc := v }

/-! ## The bus (R50 to R56) -/

/-- One more access on the bus (R60, R61). -/
def State.log (s : State) (access : BusAccess) : State := { s with bus := s.bus ++ [access] }

/-- The byte the data port answers at an address (R53), without an access. -/
def State.peek (s : State) (addr : Word) : Byte := s.mem.read addr.toNat

/-- The byte the instruction-stream port answers at an address, without an access: the data memory's when
FetchSpace is `unified`, the instruction memory's when it is `split` (R52). -/
def State.ipeek (s : State) (addr : Word) : Byte :=
  match s.config.fetchSpace with
  | .unified => s.mem.read addr.toNat
  | .split => s.imem.read addr.toNat

/-- R53: `MemRead(addr, 1)`. -/
def State.memRead8 (s : State) (addr : Word) : Byte × State :=
  (s.peek addr, s.log (.read addr (s.peek addr)))

/-- R54: `MemWrite(addr, 1, v)`, to plain memory (entry 2). -/
def State.memWrite8 (s : State) (addr : Word) (v : Byte) : State :=
  { s with mem := s.mem.write addr.toNat v }.log (.write addr v)

/-- R55: `MemRead(addr, 2)`: the byte at `addr` first, then the one at `(addr + 1) mod 65536`. -/
def State.memRead16 (s : State) (addr : Word) : Word × State :=
  let (low, s) := s.memRead8 addr
  let (high, s) := s.memRead8 (addr + 1#16)
  (cat high low, s)

/-- R56: `MemWrite(addr, 2, v)`: the low byte first. -/
def State.memWrite16 (s : State) (addr : Word) (v : Word) : State :=
  (s.memWrite8 addr (loByte v)).memWrite8 (addr + 1#16) (hiByte v)

/-! ## The instruction stream (R52, R86, R87, R281) -/

/-- R86: `fetch8()`. -/
def State.fetch8 (s : State) : Byte × State :=
  let v := s.ipeek s.pc
  (v, { s with pc := s.pc + 1#16 }.log (.ifetch s.pc v))

/-- R87: `fetch16()`. -/
def State.fetch16 (s : State) : Word × State :=
  let (lo, s) := s.fetch8
  let (hi, s) := s.fetch8
  (cat hi lo, s)

/-- R281, R82: fetch one instruction: its first byte, and as many bytes after it as that byte asks for. -/
def State.fetchInstr (s : State) : Instr × State :=
  let (op, s) := s.fetch8
  match bytesAfter op with
  | 0 => (decodeBytes op 0#8 0#8, s)
  | 1 =>
    let (b1, s) := s.fetch8
    (decodeBytes op b1 0#8, s)
  | _ =>
    let (w, s) := s.fetch16
    (decodeBytes op (loByte w) (hiByte w), s)

/-- The bus at the start of a step: nothing accessed yet (R61). -/
def State.beginStep (s : State) : State := { s with bus := [] }

/-! ## The stack (R270, R271) -/

/-- R270: `push16(v)`. -/
def State.push16 (s : State) (v : Word) : State :=
  { s with sp := s.sp - 2#16 }.memWrite16 (s.sp - 2#16) v

/-- R271: `pop16()`. -/
def State.pop16 (s : State) : Word × State :=
  let (v, s) := s.memRead16 s.sp
  (v, { s with sp := s.sp + 2#16 })

/-! ## The one exceptional outcome (R301, R309) -/

/-- R301: `raise UnknownOpcode(byte)`. The step ends and the state is the one before it: nothing is saved, no mode
changes and no handler is entered (R309). -/
def raiseUnknownOpcode (byte : Byte) : Result := .fault (.unknownOpcode byte)

/-- R228, R311: the return `RET`, and `RETI` before it sets IME: there is no trap entry to return from (R309). -/
def State.returnFromStack (s : State) : State :=
  let (v, s) := s.pop16
  s.setR16 .pc v

end Sys2Proof.Machine
end

