-- ==== Sys2Proof/Machine/Flags.lean ====
section
/-! DEFINITION. The flags and condition codes (spec 10_state.md R27 to R29) and every result and flag computation
of the ALU (40_alu8.md R120, R121, R148, R150, R152; 41_alu16.md R170, R175; 42_rotate_shift_bit.md R180 to R187). -/

namespace Sys2Proof.Machine

/-- R27: the four flags. -/
inductive Flag where
  | z | n | h | c
deriving DecidableEq, Repr

/-- R27: the bit of F that holds a flag. -/
def Flag.bit : Flag → Nat
  | .z => 7
  | .n => 6
  | .h => 5
  | .c => 4

/-- R27: `flag[X]`. -/
def State.flag (s : State) (x : Flag) : Bool := (s.r8 .f).getLsbD x.bit

/-- R27: the byte F with the given flags; bits 3..0 are 0 (R26). -/
def packFlags (z n h c : Bool) : Byte :=
  BitVec.ofBool z ++ BitVec.ofBool n ++ BitVec.ofBool h ++ BitVec.ofBool c ++ 0#4

/-- R28: `flags <- (z, n, h, c)`; `none` is the position written `-`: that flag keeps its value. -/
def State.setFlags (s : State) (z n h c : Option Bool) : State :=
  s.setR8 .f (packFlags (z.getD (s.flag .z)) (n.getD (s.flag .n)) (h.getD (s.flag .h)) (c.getD (s.flag .c)))

/-- R29: `cond(cc)`. -/
def State.cond (s : State) : Cond → Bool
  | .nz => !s.flag .z
  | .z => s.flag .z
  | .nc => !s.flag .c
  | .c => s.flag .c

/-! ## 8-bit arithmetic -/

/-- What an 8-bit operation returns: `(res, z, n, h, c)` (R120, R121). -/
structure AluResult where
  res : Byte
  z : Bool
  n : Bool
  h : Bool
  c : Bool
deriving DecidableEq, Repr

/-- R120: `add8(a, b, cin)`. -/
def add8 (a b : Byte) (cin : Bool) : AluResult :=
  let sum := a.toNat + b.toNat + cin.toNat
  let res := BitVec.ofNat 8 sum
  { res := res
    z := decide (res = 0#8)
    n := false
    h := decide (a.toNat % 16 + b.toNat % 16 + cin.toNat > 0xF)
    c := decide (sum > 0xFF) }

/-- R121: `sub8(a, b, cin)`; the right sides are not reduced before they are compared. -/
def sub8 (a b : Byte) (cin : Bool) : AluResult :=
  let res := BitVec.ofInt 8 ((a.toNat : Int) - b.toNat - cin.toNat)
  { res := res
    z := decide (res = 0#8)
    n := true
    h := decide (a.toNat % 16 < b.toNat % 16 + cin.toNat)
    c := decide (a.toNat < b.toNat + cin.toNat) }

/-- R136: `AND`, with its constant flags. -/
def and8 (a b : Byte) : AluResult :=
  { res := a &&& b, z := decide (a &&& b = 0#8), n := false, h := true, c := false }

/-- R139: `XOR`, with its constant flags. -/
def xor8 (a b : Byte) : AluResult :=
  { res := a ^^^ b, z := decide (a ^^^ b = 0#8), n := false, h := false, c := false }

/-- R142: `OR`, with its constant flags. -/
def or8 (a b : Byte) : AluResult :=
  { res := a ||| b, z := decide (a ||| b = 0#8), n := false, h := false, c := false }

/-- R28: all four flags of an ALU result. -/
def State.setAluFlags (s : State) (r : AluResult) : State :=
  s.setFlags (some r.z) (some r.n) (some r.h) (some r.c)

/-- What `DAA` computes (R152): the corrected A and the new C. Every test is made on A before correction. -/
def daa8 (a : Byte) (n h c : Bool) : Byte × Bool :=
  match n with
  | false =>
    let high := c || decide (a.toNat > 0x99)
    let low := h || decide (a.toNat % 16 > 0x9)
    (a + ((if high then 0x60#8 else 0#8) + (if low then 0x06#8 else 0#8)), high)
  | true => (a - ((if c then 0x60#8 else 0#8) + (if h then 0x06#8 else 0#8)), c)

/-! ## 16-bit arithmetic -/

/-- R170: the sum of `ADD HL,rr`, its carry out of bit 11 and its carry out of bit 15. -/
def add16 (a b : Word) : Word × Bool × Bool :=
  let sum := a.toNat + b.toNat
  (BitVec.ofNat 16 sum, decide (a.toNat % 4096 + b.toNat % 4096 > 0xFFF), decide (sum > 0xFFFF))

/-- R175: `addsp(s, e)`: the sum with the signed byte; the carries out of bits 3 and 7 of the low-byte addition. -/
def addsp (s : Word) (e : Byte) : Word × Bool × Bool :=
  (s + sext16 e, decide (s.toNat % 16 + e.toNat % 16 > 0xF), decide (s.toNat % 256 + e.toNat > 0xFF))

/-! ## Rotates and shifts: the result and the bit that leaves -/

/-- A bit as the lowest bit of a byte. -/
def bitByte (b : Bool) : Byte := (BitVec.ofBool b).setWidth 8

/-- R180. -/
def rlc8 (v : Byte) : Byte × Bool := ((v <<< 1) ||| bitByte (v.getLsbD 7), v.getLsbD 7)

/-- R181. -/
def rrc8 (v : Byte) : Byte × Bool := ((v >>> 1) ||| (bitByte (v.getLsbD 0) <<< 7), v.getLsbD 0)

/-- R182. -/
def rl8 (v : Byte) (cin : Bool) : Byte × Bool := ((v <<< 1) ||| bitByte cin, v.getLsbD 7)

/-- R183. -/
def rr8 (v : Byte) (cin : Bool) : Byte × Bool := ((v >>> 1) ||| (bitByte cin <<< 7), v.getLsbD 0)

/-- R184. -/
def sla8 (v : Byte) : Byte × Bool := (v <<< 1, v.getLsbD 7)

/-- R185. -/
def sra8 (v : Byte) : Byte × Bool := ((v >>> 1) ||| (v &&& 0x80#8), v.getLsbD 0)

/-- R186. -/
def swap8 (v : Byte) : Byte × Bool := ((v <<< 4) ||| (v >>> 4), false)

/-- R187. -/
def srl8 (v : Byte) : Byte × Bool := (v >>> 1, v.getLsbD 0)

/-- R212: bit `b` of a byte as a mask, `1 << b`. -/
def bitMask (b : BitVec 3) : Byte := 1#8 <<< b.toNat

end Sys2Proof.Machine
end

