-- ==== Sys2Proof/Machine/Operands.lean ====
section
/-! DEFINITION. The operands of CORE: how each name of spec 30_encoding.md R89 and 44_load_stack.md R272 is read and
written. Immediates stand in the instruction itself: the step has fetched them. -/

namespace Sys2Proof.Machine

/-- R90: the register an operand field names. -/
def regOf : Reg8 → R8
  | .b => .b
  | .c => .c
  | .d => .d
  | .e => .e
  | .h => .h
  | .l => .l
  | .a => .a

/-- R91: the register an `rp` field names. -/
def pairOf : RegPair → R16
  | .bc => .bc
  | .de => .de
  | .hl => .hl
  | .sp => .sp

/-- R92: the register an `rp2` field names. -/
def stackPairReg : StackPair → R16
  | .bc => .bc
  | .de => .de
  | .hl => .hl
  | .af => .af

/-- R188, R272: read an 8-bit operand: a register, or the byte at HL (one data read). -/
def State.readLoc8 (s : State) : Loc8 → Byte × State
  | .reg r => (s.r8 (regOf r), s)
  | .indHl => s.memRead8 (s.r16 .hl)

/-- R188, R272: write an 8-bit operand: a register, or the byte at HL (one data write). -/
def State.writeLoc8 (s : State) (x : Loc8) (v : Byte) : State :=
  match x with
  | .reg r => s.setR8 (regOf r) v
  | .indHl => s.memWrite8 (s.r16 .hl) v

/-- R122: read the second operand of a two-operand ALU instruction. -/
def State.readSrc8 (s : State) : Src8 → Byte × State
  | .loc x => s.readLoc8 x
  | .imm d8 => (d8, s)

/-- R124 to R144: A takes the result of an operation on A and the operand, and all four flags are written. -/
def State.aluToA (s : State) (op : Byte → Byte → AluResult) (x : Src8) : State :=
  let (v, s) := s.readSrc8 x
  let r := op (s.r8 .a) v
  (s.setR8 .a r.res).setAluFlags r

/-- R190 to R193: A takes the rotated A; Z, N and H are cleared and C takes the bit that left. -/
def State.rotateA (s : State) (op : Byte → Byte × Bool) : State :=
  let r := op (s.r8 .a)
  (s.setR8 .a r.1).setFlags (some false) (some false) (some false) (some r.2)

/-- R194 to R209: the operand takes the rotated or shifted operand; Z from the result, N and H cleared, C takes the
bit that left. -/
def State.rotateLoc (s : State) (op : Byte → Byte × Bool) (x : Loc8) : State :=
  let (v, s) := s.readLoc8 x
  let r := op v
  (s.writeLoc8 x r.1).setFlags (some (decide (r.1 = 0#8))) (some false) (some false) (some r.2)

/-- R243, R246 to R259: A register takes the byte at an address (one data read). -/
def State.loadR8 (s : State) (x : R8) (addr : Word) : State :=
  let (v, s) := s.memRead8 addr
  s.setR8 x v

/-- R226, R233: push the address of the byte after the instruction, and go to the target. -/
def State.callTo (s : State) (target : Word) : State := (s.push16 (s.r16 .pc)).setR16 .pc target

/-- R224: go to PC, which is past the instruction, plus the signed displacement. -/
def State.jumpRel (s : State) (e : Byte) : State := s.setR16 .pc (s.r16 .pc + sext16 e)

end Sys2Proof.Machine
end

