-- ==== Sys2Proof/Machine/Alu16.lean ====
section
/-! DEFINITION. The meanings of spec 41_alu16.md: 16-bit arithmetic. -/

namespace Sys2Proof.Machine

/-- R170. -/
def execAddHl (rr : RegPair) (s : State) : Result :=
  let r := add16 (s.r16 .hl) (s.r16 (pairOf rr))
  .next ((s.setR16 .hl r.1).setFlags none (some false) (some r.2.1) (some r.2.2))

/-- R171: no flag (90_conflicts.md C3). -/
def execInc16 (rr : RegPair) (s : State) : Result := .next (s.setR16 (pairOf rr) (s.r16 (pairOf rr) + 1#16))

/-- R172: no flag (90_conflicts.md C3). -/
def execDec16 (rr : RegPair) (s : State) : Result := .next (s.setR16 (pairOf rr) (s.r16 (pairOf rr) - 1#16))

/-- R173. -/
def execAddSp (e : Byte) (s : State) : Result :=
  let r := addsp (s.r16 .sp) e
  .next ((s.setR16 .sp r.1).setFlags (some false) (some false) (some r.2.1) (some r.2.2))

/-- R174. -/
def execLdHlSp (e : Byte) (s : State) : Result :=
  let r := addsp (s.r16 .sp) e
  .next ((s.setR16 .hl r.1).setFlags (some false) (some false) (some r.2.1) (some r.2.2))

end Sys2Proof.Machine
end

