-- ==== Sys2Proof/Machine/Alu8.lean ====
section
/-! DEFINITION. The meanings of spec 40_alu8.md: 8-bit arithmetic and logic. PC is past the instruction when a
meaning starts (R30). -/

namespace Sys2Proof.Machine

/-- R124 to R126. -/
def execAddA (x : Src8) (s : State) : Result := .next (s.aluToA (fun a v => add8 a v false) x)

/-- R127 to R129. -/
def execAdcA (x : Src8) (s : State) : Result := .next (s.aluToA (fun a v => add8 a v (s.flag .c)) x)

/-- R130 to R132. -/
def execSubA (x : Src8) (s : State) : Result := .next (s.aluToA (fun a v => sub8 a v false) x)

/-- R133 to R135. -/
def execSbcA (x : Src8) (s : State) : Result := .next (s.aluToA (fun a v => sub8 a v (s.flag .c)) x)

/-- R136 to R138. -/
def execAndA (x : Src8) (s : State) : Result := .next (s.aluToA and8 x)

/-- R139 to R141. -/
def execXorA (x : Src8) (s : State) : Result := .next (s.aluToA xor8 x)

/-- R142 to R144. -/
def execOrA (x : Src8) (s : State) : Result := .next (s.aluToA or8 x)

/-- R145 to R147: as SUB, the result discarded. -/
def execCpA (x : Src8) (s : State) : Result :=
  let (v, s) := s.readSrc8 x
  .next (s.setAluFlags (sub8 (s.r8 .a) v false))

/-- R148, R149. -/
def execInc8 (x : Loc8) (s : State) : Result :=
  let (v, s) := s.readLoc8 x
  let res := v + 1#8
  .next ((s.writeLoc8 x res).setFlags (some (decide (res = 0#8))) (some false)
    (some (decide (v.toNat % 16 = 0xF))) none)

/-- R150, R151. -/
def execDec8 (x : Loc8) (s : State) : Result :=
  let (v, s) := s.readLoc8 x
  let res := v - 1#8
  .next ((s.writeLoc8 x res).setFlags (some (decide (res = 0#8))) (some true)
    (some (decide (v.toNat % 16 = 0x0))) none)

/-- R152. -/
def execDaa (s : State) : Result :=
  let r := daa8 (s.r8 .a) (s.flag .n) (s.flag .h) (s.flag .c)
  .next ((s.setR8 .a r.1).setFlags (some (decide (r.1 = 0#8))) none (some false) (some r.2))

/-- R153. -/
def execCpl (s : State) : Result := .next ((s.setR8 .a (~~~ (s.r8 .a))).setFlags none (some true) (some true) none)

/-- R154. -/
def execScf (s : State) : Result := .next (s.setFlags none (some false) (some false) (some true))

/-- R155. -/
def execCcf (s : State) : Result := .next (s.setFlags none (some false) (some false) (some (!s.flag .c)))

end Sys2Proof.Machine
end

