-- ==== Sys2Proof/Machine/Control.lean ====
section
/-! DEFINITION. The meanings of spec 43_control_flow.md. PC is past the whole instruction when a meaning starts, so
an instruction whose condition is false has nothing left to do (R220). -/

namespace Sys2Proof.Machine

/-- R221. -/
def execJp (a16 : Word) (s : State) : Result := .next (s.setR16 .pc a16)

/-- R222. -/
def execJpCc (cc : Cond) (a16 : Word) (s : State) : Result :=
  .next (if s.cond cc then s.setR16 .pc a16 else s)

/-- R223: the value of HL, not the memory it points at. -/
def execJpHl (s : State) : Result := .next (s.setR16 .pc (s.r16 .hl))

/-- R224. -/
def execJr (e : Byte) (s : State) : Result := .next (s.jumpRel e)

/-- R225. -/
def execJrCc (cc : Cond) (e : Byte) (s : State) : Result := .next (if s.cond cc then s.jumpRel e else s)

/-- R226. -/
def execCall (a16 : Word) (s : State) : Result := .next (s.callTo a16)

/-- R227. -/
def execCallCc (cc : Cond) (a16 : Word) (s : State) : Result :=
  .next (if s.cond cc then s.callTo a16 else s)

/-- R228. -/
def execRet (s : State) : Result := .next s.returnFromStack

/-- R229. -/
def execRetCc (cc : Cond) (s : State) : Result := .next (if s.cond cc then s.returnFromStack else s)

/-- R232: RET, then IME is set within the same step. -/
def execReti (s : State) : Result := .next { s.returnFromStack with ime := true }

/-- R233: a call of `8 * y`. -/
def execRst (y : BitVec 3) (s : State) : Result := .next (s.callTo (zext16 (BitVec.ofNat 8 (8 * y.toNat))))

end Sys2Proof.Machine
end

