-- ==== Sys2Proof/Machine/Load.lean ====
section
/-! DEFINITION. The meanings of spec 44_load_stack.md: loads, stores and the stack. No flag is written, but by
`POP AF` (R240). -/

namespace Sys2Proof.Machine

/-- R241. -/
def execLdRR (dst src : Reg8) (s : State) : Result := .next (s.setR8 (regOf dst) (s.r8 (regOf src)))

/-- R242. -/
def execLdRD8 (r : Reg8) (d8 : Byte) (s : State) : Result := .next (s.setR8 (regOf r) d8)

/-- R243. -/
def execLdRHl (r : Reg8) (s : State) : Result := .next (s.loadR8 (regOf r) (s.r16 .hl))

/-- R244. -/
def execLdHlR (r : Reg8) (s : State) : Result := .next (s.memWrite8 (s.r16 .hl) (s.r8 (regOf r)))

/-- R245. -/
def execLdHlD8 (d8 : Byte) (s : State) : Result := .next (s.memWrite8 (s.r16 .hl) d8)

/-- R246. -/
def execLdABc (s : State) : Result := .next (s.loadR8 .a (s.r16 .bc))

/-- R247. -/
def execLdADe (s : State) : Result := .next (s.loadR8 .a (s.r16 .de))

/-- R248. -/
def execLdBcA (s : State) : Result := .next (s.memWrite8 (s.r16 .bc) (s.r8 .a))

/-- R249. -/
def execLdDeA (s : State) : Result := .next (s.memWrite8 (s.r16 .de) (s.r8 .a))

/-- R250. -/
def execLdAA16 (a16 : Word) (s : State) : Result := .next (s.loadR8 .a a16)

/-- R251. -/
def execLdA16A (a16 : Word) (s : State) : Result := .next (s.memWrite8 a16 (s.r8 .a))

/-- R252. -/
def execLdhAC (s : State) : Result := .next (s.loadR8 .a (highPage (s.r8 .c)))

/-- R253. -/
def execLdhCA (s : State) : Result := .next (s.memWrite8 (highPage (s.r8 .c)) (s.r8 .a))

/-- R254. -/
def execLdhAA8 (a8 : Byte) (s : State) : Result := .next (s.loadR8 .a (highPage a8))

/-- R255. -/
def execLdhA8A (a8 : Byte) (s : State) : Result := .next (s.memWrite8 (highPage a8) (s.r8 .a))

/-- R256: the write, then HL + 1. -/
def execLdHliA (s : State) : Result :=
  let a := s.r16 .hl
  .next ((s.memWrite8 a (s.r8 .a)).setR16 .hl (a + 1#16))

/-- R257: the read, then HL + 1. -/
def execLdAHli (s : State) : Result :=
  let a := s.r16 .hl
  .next ((s.loadR8 .a a).setR16 .hl (a + 1#16))

/-- R258: the write, then HL - 1. -/
def execLdHldA (s : State) : Result :=
  let a := s.r16 .hl
  .next ((s.memWrite8 a (s.r8 .a)).setR16 .hl (a - 1#16))

/-- R259: the read, then HL - 1. -/
def execLdAHld (s : State) : Result :=
  let a := s.r16 .hl
  .next ((s.loadR8 .a a).setR16 .hl (a - 1#16))

/-- R260. -/
def execLdRrD16 (rr : RegPair) (d16 : Word) (s : State) : Result := .next (s.setR16 (pairOf rr) d16)

/-- R261. -/
def execLdA16Sp (a16 : Word) (s : State) : Result := .next (s.memWrite16 a16 (s.r16 .sp))

/-- R262. -/
def execLdSpHl (s : State) : Result := .next (s.setR16 .sp (s.r16 .hl))

/-- R268. -/
def execPush (qq : StackPair) (s : State) : Result := .next (s.push16 (s.r16 (stackPairReg qq)))

/-- R269: the write of AF keeps bits 7..4 of the low byte (R26). -/
def execPop (qq : StackPair) (s : State) : Result :=
  let (v, s) := s.pop16
  .next (s.setR16 (stackPairReg qq) v)

end Sys2Proof.Machine
end

