-- ==== Sys2Proof/Machine/Rotate.lean ====
section
/-! DEFINITION. The meanings of spec 42_rotate_shift_bit.md: rotates, shifts and bit operations. -/

namespace Sys2Proof.Machine

/-- R190. -/
def execRlca (s : State) : Result := .next (s.rotateA rlc8)

/-- R191. -/
def execRrca (s : State) : Result := .next (s.rotateA rrc8)

/-- R192. -/
def execRla (s : State) : Result := .next (s.rotateA (fun v => rl8 v (s.flag .c)))

/-- R193. -/
def execRra (s : State) : Result := .next (s.rotateA (fun v => rr8 v (s.flag .c)))

/-- R194, R195. -/
def execRlc (x : Loc8) (s : State) : Result := .next (s.rotateLoc rlc8 x)

/-- R196, R197. -/
def execRrc (x : Loc8) (s : State) : Result := .next (s.rotateLoc rrc8 x)

/-- R198, R199. -/
def execRl (x : Loc8) (s : State) : Result := .next (s.rotateLoc (fun v => rl8 v (s.flag .c)) x)

/-- R200, R201. -/
def execRr (x : Loc8) (s : State) : Result := .next (s.rotateLoc (fun v => rr8 v (s.flag .c)) x)

/-- R202, R203. -/
def execSla (x : Loc8) (s : State) : Result := .next (s.rotateLoc sla8 x)

/-- R204, R205. -/
def execSra (x : Loc8) (s : State) : Result := .next (s.rotateLoc sra8 x)

/-- R206, R207. -/
def execSwap (x : Loc8) (s : State) : Result := .next (s.rotateLoc swap8 x)

/-- R208, R209. -/
def execSrl (x : Loc8) (s : State) : Result := .next (s.rotateLoc srl8 x)

/-- R210, R211: one read, no write. -/
def execBit (b : BitVec 3) (x : Loc8) (s : State) : Result :=
  let (v, s) := s.readLoc8 x
  .next (s.setFlags (some (!v.getLsbD b.toNat)) (some false) (some true) none)

/-- R212, R213. -/
def execRes (b : BitVec 3) (x : Loc8) (s : State) : Result :=
  let (v, s) := s.readLoc8 x
  .next (s.writeLoc8 x (v &&& ~~~ (bitMask b)))

/-- R214, R215. -/
def execSetBit (b : BitVec 3) (x : Loc8) (s : State) : Result :=
  let (v, s) := s.readLoc8 x
  .next (s.writeLoc8 x (v ||| bitMask b))

end Sys2Proof.Machine
end

