-- ==== Sys2Proof/Machine/System.lean ====
section
/-! DEFINITION. The meanings of spec 45_system.md: NOP, DI, EI, HALT, the decode failures and PREFIX CB. -/

namespace Sys2Proof.Machine

/-- R282. -/
def execNop (s : State) : Result := .next s

/-- R283: at once, with no delay. -/
def execDi (s : State) : Result := .next { s with ime := false }

/-- R284: at once, with no delay. -/
def execEi (s : State) : Result := .next { s with ime := true }

/-- R285: the one entry into `halted`; PC stays past the instruction. -/
def execHalt (s : State) : Result := .next { s with halted := true }

/-- R286: "an opcode byte absent from the table": the decode failure of 0x10. -/
def execStop (_s : State) : Result := raiseUnknownOpcode 0x10#8

/-- R288: the decode failure of one of the eleven undefined bytes. -/
def execUndefined (op : Byte) (_s : State) : Result := raiseUnknownOpcode op

/-- R287, R102: PREFIX executes the CB-space instruction that the second byte names, within the same step. -/
def execPrefixCb (op2 : Byte) (s : State) : Result :=
  let y := opY op2
  let x := loc8Of (opZ op2)
  match (opX op2).toNat with
  | 0 =>
    match y.toNat with
    | 0 => execRlc x s
    | 1 => execRrc x s
    | 2 => execRl x s
    | 3 => execRr x s
    | 4 => execSla x s
    | 5 => execSra x s
    | 6 => execSwap x s
    | _ => execSrl x s
  | 1 => execBit y x s
  | 2 => execRes y x s
  | _ => execSetBit y x s

end Sys2Proof.Machine
end

