-- ==== Sys2Proof/Machine/Dispatch.lean ====
section
/-! DEFINITION. The meaning of every instruction, one arm each. -/

namespace Sys2Proof.Machine

def exec (i : Instr) (s : State) : Host.Outcome State Fault Refusal :=
  match i with
  -- 45_system.md
  | .nop => Sys2Proof.Machine.execNop s
  | .di => Sys2Proof.Machine.execDi s
  | .ei => Sys2Proof.Machine.execEi s
  | .halt => Sys2Proof.Machine.execHalt s
  | .stop => Sys2Proof.Machine.execStop s
  | .prefixCb op2 => Sys2Proof.Machine.execPrefixCb op2 s
  | .undefined op => Sys2Proof.Machine.execUndefined op s
  -- 40_alu8.md
  | .addA x => Sys2Proof.Machine.execAddA x s
  | .adcA x => Sys2Proof.Machine.execAdcA x s
  | .subA x => Sys2Proof.Machine.execSubA x s
  | .sbcA x => Sys2Proof.Machine.execSbcA x s
  | .andA x => Sys2Proof.Machine.execAndA x s
  | .xorA x => Sys2Proof.Machine.execXorA x s
  | .orA x => Sys2Proof.Machine.execOrA x s
  | .cpA x => Sys2Proof.Machine.execCpA x s
  | .inc8 x => Sys2Proof.Machine.execInc8 x s
  | .dec8 x => Sys2Proof.Machine.execDec8 x s
  | .daa => Sys2Proof.Machine.execDaa s
  | .cpl => Sys2Proof.Machine.execCpl s
  | .scf => Sys2Proof.Machine.execScf s
  | .ccf => Sys2Proof.Machine.execCcf s
  -- 41_alu16.md
  | .addHl rr => Sys2Proof.Machine.execAddHl rr s
  | .inc16 rr => Sys2Proof.Machine.execInc16 rr s
  | .dec16 rr => Sys2Proof.Machine.execDec16 rr s
  | .addSp r8 => Sys2Proof.Machine.execAddSp r8 s
  | .ldHlSp r8 => Sys2Proof.Machine.execLdHlSp r8 s
  -- 42_rotate_shift_bit.md
  | .rlca => Sys2Proof.Machine.execRlca s
  | .rrca => Sys2Proof.Machine.execRrca s
  | .rla => Sys2Proof.Machine.execRla s
  | .rra => Sys2Proof.Machine.execRra s
  | .rlc x => Sys2Proof.Machine.execRlc x s
  | .rrc x => Sys2Proof.Machine.execRrc x s
  | .rl x => Sys2Proof.Machine.execRl x s
  | .rr x => Sys2Proof.Machine.execRr x s
  | .sla x => Sys2Proof.Machine.execSla x s
  | .sra x => Sys2Proof.Machine.execSra x s
  | .swap x => Sys2Proof.Machine.execSwap x s
  | .srl x => Sys2Proof.Machine.execSrl x s
  | .bit b x => Sys2Proof.Machine.execBit b x s
  | .res b x => Sys2Proof.Machine.execRes b x s
  | .setBit b x => Sys2Proof.Machine.execSetBit b x s
  -- 43_control_flow.md
  | .jp a16 => Sys2Proof.Machine.execJp a16 s
  | .jpCc cc a16 => Sys2Proof.Machine.execJpCc cc a16 s
  | .jpHl => Sys2Proof.Machine.execJpHl s
  | .jr r8 => Sys2Proof.Machine.execJr r8 s
  | .jrCc cc r8 => Sys2Proof.Machine.execJrCc cc r8 s
  | .call a16 => Sys2Proof.Machine.execCall a16 s
  | .callCc cc a16 => Sys2Proof.Machine.execCallCc cc a16 s
  | .ret => Sys2Proof.Machine.execRet s
  | .retCc cc => Sys2Proof.Machine.execRetCc cc s
  | .reti => Sys2Proof.Machine.execReti s
  | .rst y => Sys2Proof.Machine.execRst y s
  -- 44_load_stack.md
  | .ldRR dst src => Sys2Proof.Machine.execLdRR dst src s
  | .ldRD8 r d8 => Sys2Proof.Machine.execLdRD8 r d8 s
  | .ldRHl r => Sys2Proof.Machine.execLdRHl r s
  | .ldHlR r => Sys2Proof.Machine.execLdHlR r s
  | .ldHlD8 d8 => Sys2Proof.Machine.execLdHlD8 d8 s
  | .ldABc => Sys2Proof.Machine.execLdABc s
  | .ldADe => Sys2Proof.Machine.execLdADe s
  | .ldBcA => Sys2Proof.Machine.execLdBcA s
  | .ldDeA => Sys2Proof.Machine.execLdDeA s
  | .ldAA16 a16 => Sys2Proof.Machine.execLdAA16 a16 s
  | .ldA16A a16 => Sys2Proof.Machine.execLdA16A a16 s
  | .ldhAC => Sys2Proof.Machine.execLdhAC s
  | .ldhCA => Sys2Proof.Machine.execLdhCA s
  | .ldhAA8 a8 => Sys2Proof.Machine.execLdhAA8 a8 s
  | .ldhA8A a8 => Sys2Proof.Machine.execLdhA8A a8 s
  | .ldHliA => Sys2Proof.Machine.execLdHliA s
  | .ldAHli => Sys2Proof.Machine.execLdAHli s
  | .ldHldA => Sys2Proof.Machine.execLdHldA s
  | .ldAHld => Sys2Proof.Machine.execLdAHld s
  | .ldRrD16 rr d16 => Sys2Proof.Machine.execLdRrD16 rr d16 s
  | .ldA16Sp a16 => Sys2Proof.Machine.execLdA16Sp a16 s
  | .ldSpHl => Sys2Proof.Machine.execLdSpHl s
  | .push qq => Sys2Proof.Machine.execPush qq s
  | .pop qq => Sys2Proof.Machine.execPop qq s

end Sys2Proof.Machine
end

