-- ==== Sys2Proof/Machine/Step.lean ====
section
/-! DEFINITION. One step (spec 45_system.md R280, R281), and how the host places an instruction. -/

namespace Sys2Proof.Machine

/-- R280, R281: in `halted` a step does nothing and accesses nothing; in `running` it fetches one instruction and
executes it. A fault leaves the state before the step (R301). -/
def step (s : State) : Host.Outcome State Fault Refusal :=
  if s.halted then .next s.beginStep
  else exec s.beginStep.fetchInstr.1 s.beginStep.fetchInstr.2

/-- The state with the instruction of an opcode-table word stored where the next step fetches, in the memory the
instruction-stream port reads (R52), and the core running. The environment places programs (R342); this stands for
that. -/
def State.withFetchWord (s : State) (nbits w : Nat) : State :=
  let bytes := tableBytes nbits w
  let place (m : Memory) : Memory :=
    ((m.write s.pc.toNat bytes.1).write (s.pc + 1#16).toNat bytes.2.1).write (s.pc + 2#16).toNat bytes.2.2
  match s.config.fetchSpace with
  | .unified => { s with halted := false, mem := place s.mem }
  | .split => { s with halted := false, imem := place s.imem }

end Sys2Proof.Machine
end

