-- ==== Sys2Proof/Machine/Environment.lean ====
section
/-! DEFINITION. CORE as its environment sees it (spec 00_scope.md R8): the events reset and step, a byte that another
bus agent writes between steps (60_exceptions.md R321), and the output ports after each. -/

namespace Sys2Proof.Machine

/-! ## The fault port (R302, R305) -/

/-- R302: `fault_code`. -/
def Fault.code : Fault → BitVec 3
  | .unknownOpcode _ => 1#3
  | .unknownOperandName _ => 2#3
  | .invalidOperandWidth _ _ => 3#3
  | .invalidRegisterForOperation _ => 4#3

/-- R302: `fault_byte`. -/
def Fault.byte : Fault → Byte
  | .unknownOpcode byte => byte
  | .unknownOperandName _ => 0x00#8
  | .invalidOperandWidth _ _ => 0x00#8
  | .invalidRegisterForOperation _ => 0x00#8

/-! ## The bus ports of one access (R8) -/

def BusAccess.addr : BusAccess → Word
  | .ifetch addr _ => addr
  | .read addr _ => addr
  | .write addr _ => addr

/-- The byte on `rdata` for a read, on `wdata` for a write. -/
def BusAccess.data : BusAccess → Byte
  | .ifetch _ rdata => rdata
  | .read _ rdata => rdata
  | .write _ wdata => wdata

def BusAccess.rd : BusAccess → Bool
  | .ifetch _ _ => true
  | .read _ _ => true
  | .write _ _ => false

def BusAccess.wr : BusAccess → Bool
  | .ifetch _ _ => false
  | .read _ _ => false
  | .write _ _ => true

def BusAccess.isIfetch : BusAccess → Bool
  | .ifetch _ _ => true
  | .read _ _ => false
  | .write _ _ => false

/-! ## The output ports (R8, R305, R322) -/

structure Ports where
  done : Bool
  faultValid : Bool
  faultCode : BitVec 3
  faultByte : Byte
  accesses : List BusAccess
  ime : Bool
  halted : Bool
  dbgAf : Word
  dbgBc : Word
  dbgDe : Word
  dbgHl : Word
  dbgSp : Word
  dbgPc : Word
deriving DecidableEq, Repr

/-- R305, R322: the ports in a state, with the fault of the step just completed, if it had one. -/
def State.ports (s : State) (done : Bool) (fault : Option Fault) : Ports :=
  { done := done
    faultValid := fault.isSome
    faultCode := (fault.map Fault.code).getD 0#3
    faultByte := (fault.map Fault.byte).getD 0x00#8
    accesses := s.bus
    ime := s.ime
    halted := s.halted
    dbgAf := s.r16 .af
    dbgBc := s.r16 .bc
    dbgDe := s.r16 .de
    dbgHl := s.r16 .hl
    dbgSp := s.r16 .sp
    dbgPc := s.r16 .pc }

/-! ## Events -/

/-- R301: the state after a step that failed to decode: as before it, the one access being the read of the byte. -/
def State.afterFault (s : State) : State := s.beginStep.log (.ifetch s.pc (s.ipeek s.pc))

/-- R340: `reset`: every register to its value in R37; memory and parameters as they are; no bus access. -/
def State.applyReset (s : State) : State :=
  { State.resetFor s.config with mem := s.mem, imem := s.imem }

/-- What the environment does to CORE and its memory, between instructions (R341). -/
inductive EnvEvent where
  | reset
  | step
  /-- R321: another bus agent writes a byte of data memory. -/
  | write (addr : Word) (v : Byte)
  /-- R342: the environment loads a byte of the instruction memory of FetchSpace `split`. -/
  | load (addr : Word) (v : Byte)
deriving DecidableEq, Repr

/-- The state after one event and the ports it leaves. A `step` always completes (R7, R8): with a fault, the state is
the one before it (R301). DESIGN CHOICE (entry 12): after a write or a load event the fault port reads no fault, with
`done` false; R305 says what it reads after a step and after reset only. -/
def environment (event : EnvEvent) (s : State) : State × Ports :=
  match event with
  | .reset => (s.applyReset, s.applyReset.ports false none)
  | .step =>
    match step s with
    | .next t => (t, t.ports true none)
    | .fault r => (s.afterFault, s.afterFault.ports true (some r))
    | .refused _ => (s, s.ports false none)
  | .write addr v =>
    let t := { s with mem := s.mem.write addr.toNat v, bus := [] }
    (t, t.ports false none)
  | .load addr v =>
    let t := { s with imem := s.imem.write addr.toNat v, bus := [] }
    (t, t.ports false none)

/-- The state after a list of events, first event first. -/
def environmentRun : List EnvEvent → State → State
  | [], s => s
  | event :: events, s => environmentRun events (environment event s).1

end Sys2Proof.Machine
end

