-- ==== Sys2Proof/Safety.lean ====
section
/-! DEFINITION. What claims about CORE are stated in: the state invariant, what two states share, the effects the
spec's summary tables give each instruction, and what a list of bus accesses does to memory. -/

namespace Sys2Proof.Machine

/-! ## The invariant -/

/-- What every reachable state satisfies: both memories in canonical form, and F's low nibble 0 (R26, R38a). -/
abbrev State.Inv (s : State) : Prop := s.mem.wf = true ∧ s.imem.wf = true ∧ s.f &&& 0x0F#8 = 0#8

/-! ## What two states share -/

/-- Frame of an instruction (R22, R24, R28): `t` is `s` but for the registers `regs` (F is spoken of by its flags),
the flags `flags` and the bytes of data memory at `stores`. SP, PC, IME and `halted` are not spoken of. -/
structure Frame (s t : State) (regs : List R8) (flags : List Flag) (stores : List Word) : Prop where
  regs : ∀ r, r ≠ .f → r ∉ regs → t.r8 r = s.r8 r
  flags : ∀ x, x ∉ flags → t.flag x = s.flag x
  data : ∀ addr, addr ∉ stores → t.peek addr = s.peek addr
  code : t.imem = s.imem
  config : t.config = s.config

/-- SP, IME and `halted` are as before. -/
abbrev SameControl (s t : State) : Prop := t.sp = s.sp ∧ t.ime = s.ime ∧ t.halted = s.halted

/-- The four flags of a state (R27). -/
abbrev FlagsAre (s : State) (z n h c : Bool) : Prop :=
  s.flag .z = z ∧ s.flag .n = n ∧ s.flag .h = h ∧ s.flag .c = c

/-! ## Operand values, as the instruction rules speak of them -/

/-- R188: the value of an 8-bit operand. -/
def State.locValue (s : State) : Loc8 → Byte
  | .reg r => s.r8 (regOf r)
  | .indHl => s.peek (s.r16 .hl)

/-- R122: the value of the second ALU operand. -/
def State.srcValue (s : State) : Src8 → Byte
  | .loc x => s.locValue x
  | .imm d8 => d8

/-- R59: the data reads of an 8-bit operand. -/
def State.locReads (s : State) : Loc8 → List BusAccess
  | .reg _ => []
  | .indHl => [.read (s.r16 .hl) (s.peek (s.r16 .hl))]

/-- R122: the data reads of the second ALU operand. -/
def State.srcReads (s : State) : Src8 → List BusAccess
  | .loc x => s.locReads x
  | .imm _ => []

/-- R188: the data writes of an 8-bit operand. -/
def State.locWrites (s : State) (v : Byte) : Loc8 → List BusAccess
  | .reg _ => []
  | .indHl => [.write (s.r16 .hl) v]

/-- The register an 8-bit operand is, if it is one. -/
def locRegs : Loc8 → List R8
  | .reg r => [regOf r]
  | .indHl => []

/-- The address of an 8-bit operand, if it is in memory. -/
def State.locStores (s : State) : Loc8 → List Word
  | .reg _ => []
  | .indHl => [s.r16 .hl]

/-! ## Effects of one shape -/

/-- The effect of a two-operand ALU instruction with operand `x`: A and the four flags as given, the reads of the
operand on the bus, and everything else as before. -/
structure AluEffect (s t : State) (x : Src8) (res : Byte) (z n h c : Bool) : Prop where
  result : t.a = res
  flags : FlagsAre t z n h c
  frame : Frame s t [.a] [.z, .n, .h, .c] []
  control : SameControl s t
  pc : t.pc = s.pc
  bus : t.bus = s.bus ++ s.srcReads x

/-- The effect of an instruction that replaces the 8-bit operand `x` by `res` and may write the flags `flags`: one
read and one write of the operand if it is `(HL)` (R188), and everything else as before. -/
structure LocEffect (s t : State) (x : Loc8) (res : Byte) (flags : List Flag) : Prop where
  result : t.locValue x = res
  frame : Frame s t (locRegs x) flags (s.locStores x)
  control : SameControl s t
  pc : t.pc = s.pc
  bus : t.bus = s.bus ++ s.locReads x ++ s.locWrites res x

/-- The effect of an instruction that makes no data access and writes only the registers `regs`, flags `flags`. -/
structure RegEffect (s t : State) (regs : List R8) (flags : List Flag) : Prop where
  frame : Frame s t regs flags []
  ime : t.ime = s.ime
  halted : t.halted = s.halted
  bus : t.bus = s.bus

/-! ## The spec's summary tables -/

/-- R39: the flags an instruction writes. -/
def flagsWritten : Instr → List Flag
  | .addA _ | .adcA _ | .subA _ | .sbcA _ | .andA _ | .xorA _ | .orA _ | .cpA _ => [.z, .n, .h, .c]
  | .inc8 _ | .dec8 _ => [.z, .n, .h]
  | .daa => [.z, .h, .c]
  | .cpl => [.n, .h]
  | .scf | .ccf => [.n, .h, .c]
  | .addHl _ => [.n, .h, .c]
  | .addSp _ | .ldHlSp _ => [.z, .n, .h, .c]
  | .rlca | .rrca | .rla | .rra => [.z, .n, .h, .c]
  | .rlc _ | .rrc _ | .rl _ | .rr _ | .sla _ | .sra _ | .swap _ | .srl _ => [.z, .n, .h, .c]
  | .bit _ _ => [.z, .n, .h]
  | .prefixCb op2 => if opX op2 = 0#2 then [.z, .n, .h, .c] else if opX op2 = 1#2 then [.z, .n, .h] else []
  | .pop .af => [.z, .n, .h, .c]
  | .inc16 _ | .dec16 _ | .res _ _ | .setBit _ _ | .jp _ | .jpCc _ _ | .jpHl | .jr _ | .jrCc _ _ | .call _
  | .callCc _ _ | .ret | .retCc _ | .reti | .rst _ | .ldRR _ _ | .ldRD8 _ _ | .ldRHl _ | .ldHlR _ | .ldHlD8 _
  | .ldABc | .ldADe | .ldBcA | .ldDeA | .ldAA16 _ | .ldA16A _ | .ldhAC | .ldhCA | .ldhAA8 _ | .ldhA8A _ | .ldHliA
  | .ldAHli | .ldHldA | .ldAHld | .ldRrD16 _ _ | .ldA16Sp _ | .ldSpHl | .push _ | .pop .bc | .pop .de | .pop .hl
  | .nop | .di | .ei | .halt | .stop | .undefined _ => []

/-- The halves of a pair, for the tables below. SP has none. -/
def pairHalves : R16 → List R8
  | .af => [.a]
  | .bc => [.b, .c]
  | .de => [.d, .e]
  | .hl => [.h, .l]
  | .sp => []
  | .pc => []

/-- R32: the 8-bit registers other than F that an instruction may write. -/
def regsWritten : Instr → List R8
  | .addA _ | .adcA _ | .subA _ | .sbcA _ | .andA _ | .xorA _ | .orA _ => [.a]
  | .daa | .cpl | .rlca | .rrca | .rla | .rra => [.a]
  | .inc8 x | .dec8 x => locRegs x
  | .addHl _ | .ldHlSp _ => [.h, .l]
  | .inc16 rr | .dec16 rr | .ldRrD16 rr _ => pairHalves (pairOf rr)
  | .rlc x | .rrc x | .rl x | .rr x | .sla x | .sra x | .swap x | .srl x | .res _ x | .setBit _ x => locRegs x
  | .prefixCb op2 => if opX op2 = 1#2 then [] else locRegs (loc8Of (opZ op2))
  | .ldRR dst _ => [regOf dst]
  | .ldRD8 r _ | .ldRHl r => [regOf r]
  | .ldABc | .ldADe | .ldAA16 _ | .ldhAC | .ldhAA8 _ => [.a]
  | .ldAHli | .ldAHld => [.a, .h, .l]
  | .ldHliA | .ldHldA => [.h, .l]
  | .pop qq => pairHalves (stackPairReg qq)
  | .cpA _ | .scf | .ccf | .addSp _ | .bit _ _ | .jp _ | .jpCc _ _ | .jpHl | .jr _ | .jrCc _ _ | .call _
  | .callCc _ _ | .ret | .retCc _ | .reti | .rst _ | .ldHlR _ | .ldHlD8 _ | .ldBcA | .ldDeA | .ldA16A _ | .ldhCA
  | .ldhA8A _ | .ldA16Sp _ | .ldSpHl | .push _ | .nop | .di | .ei | .halt | .stop | .undefined _ => []

/-- R31: the instructions that may write SP. -/
def writesSp : Instr → Bool
  | .inc16 .sp | .dec16 .sp | .ldRrD16 .sp _ | .addSp _ | .ldSpHl | .push _ | .pop _ | .call _ | .callCc _ _ | .ret
  | .retCc _ | .reti | .rst _ => true
  | _ => false

/-- R30: the instructions that overwrite PC ("written by JP, JR, CALL, RET, RETI, RST"). -/
def writesPc : Instr → Bool
  | .jp _ | .jpCc _ _ | .jpHl | .jr _ | .jrCc _ _ | .call _ | .callCc _ _ | .ret | .retCc _ | .reti | .rst _ => true
  | _ => false

/-- A data access of R59: its direction and its address. -/
inductive DataAccess where
  | rd (addr : Word)
  | wr (addr : Word)
deriving DecidableEq, Repr

/-- The data access a bus access is; none if it is an instruction-stream read. -/
def BusAccess.toData : BusAccess → Option DataAccess
  | .ifetch _ _ => none
  | .read addr _ => some (.rd addr)
  | .write addr _ => some (.wr addr)

/-- R59, R188: one read of an `(HL)` operand. -/
def locRd (s : State) : Loc8 → List DataAccess
  | .reg _ => []
  | .indHl => [.rd (s.r16 .hl)]

/-- R59, R188: one read, then one write, of an `(HL)` operand. -/
def locRdWr (s : State) : Loc8 → List DataAccess
  | .reg _ => []
  | .indHl => [.rd (s.r16 .hl), .wr (s.r16 .hl)]

/-- R59: an ALU source. -/
def srcRd (s : State) : Src8 → List DataAccess
  | .loc x => locRd s x
  | .imm _ => []

/-- R59: the two writes of a push: new SP, then new SP + 1. -/
def pushWr (s : State) : List DataAccess := [.wr (s.sp - 2#16), .wr (s.sp - 1#16)]

/-- R59: the two reads of a pop: SP, then SP + 1. -/
def popRd (s : State) : List DataAccess := [.rd s.sp, .rd (s.sp + 1#16)]

/-- R59: the data accesses of an instruction, in order. -/
def dataAccesses (i : Instr) (s : State) : List DataAccess :=
  match i with
  | .addA x | .adcA x | .subA x | .sbcA x | .andA x | .xorA x | .orA x | .cpA x => srcRd s x
  | .ldRHl _ | .ldAHli | .ldAHld => [.rd (s.r16 .hl)]
  | .bit _ x => locRd s x
  | .ldHlR _ | .ldHlD8 _ | .ldHliA | .ldHldA => [.wr (s.r16 .hl)]
  | .inc8 x | .dec8 x | .rlc x | .rrc x | .rl x | .rr x | .sla x | .sra x | .swap x | .srl x | .res _ x
  | .setBit _ x => locRdWr s x
  | .prefixCb op2 =>
    if opX op2 = 1#2 then locRd s (loc8Of (opZ op2)) else locRdWr s (loc8Of (opZ op2))
  | .ldABc => [.rd (s.r16 .bc)]
  | .ldADe => [.rd (s.r16 .de)]
  | .ldAA16 a16 => [.rd a16]
  | .ldhAA8 a8 => [.rd (0xFF00#16 + a8.setWidth 16)]
  | .ldhAC => [.rd (0xFF00#16 + s.c.setWidth 16)]
  | .ldBcA => [.wr (s.r16 .bc)]
  | .ldDeA => [.wr (s.r16 .de)]
  | .ldA16A a16 => [.wr a16]
  | .ldhA8A a8 => [.wr (0xFF00#16 + a8.setWidth 16)]
  | .ldhCA => [.wr (0xFF00#16 + s.c.setWidth 16)]
  | .ldA16Sp a16 => [.wr a16, .wr (a16 + 1#16)]
  | .push _ | .call _ | .rst _ => pushWr s
  | .callCc cc _ => if s.cond cc then pushWr s else []
  | .pop _ | .ret | .reti => popRd s
  | .retCc cc => if s.cond cc then popRd s else []
  | .daa | .cpl | .scf | .ccf | .addHl _ | .inc16 _ | .dec16 _ | .addSp _ | .ldHlSp _ | .rlca | .rrca | .rla | .rra
  | .jp _ | .jpCc _ _ | .jpHl | .jr _ | .jrCc _ _ | .ldRR _ _ | .ldRD8 _ _ | .ldRrD16 _ _ | .ldSpHl | .nop | .di
  | .ei | .halt | .stop | .undefined _ => []

/-! ## What bus accesses do to memory -/

/-- The state with more accesses on the bus, in order (R60). -/
def State.logs (s : State) (accesses : List BusAccess) : State := { s with bus := s.bus ++ accesses }

/-- R60: the instruction-stream reads of `n` bytes from `addr` on, at increasing address. -/
def State.fetches (s : State) : Nat → Word → List BusAccess
  | 0, _ => []
  | n + 1, addr => .ifetch addr (s.ipeek addr) :: State.fetches s n (addr + 1#16)

/-- R65: the byte at `addr` after a list of accesses, if it was `v` before: the latest write to it, or `v`. -/
def latestWrite (addr : Word) (v : Byte) : List BusAccess → Byte
  | [] => v
  | .write target w :: rest => latestWrite addr (if target = addr then w else v) rest
  | .ifetch _ _ :: rest => latestWrite addr v rest
  | .read _ _ :: rest => latestWrite addr v rest

/-- What a read of the access answered is what memory held (R53, R65): an instruction-stream read what the
instruction-stream port answers in `s`, a data read what the data port answers in `s`. -/
def BusAccess.answeredBy (s : State) : BusAccess → Prop
  | .ifetch addr rdata => rdata = s.ipeek addr
  | .read addr rdata => rdata = s.peek addr
  | .write _ _ => True

/-- The bytes at the place the next step fetches from are `bytes` (R52, R81). -/
def State.fetchesBytes (s : State) : Word → List Byte → Prop
  | _, [] => True
  | addr, b :: rest => s.ipeek addr = b ∧ State.fetchesBytes s (addr + 1#16) rest

end Sys2Proof.Machine
end

