-- ==== Sys2Proof/Certificates/Slice0/Obligations.lean ====
section
/-! DEFINITION. The statements about CORE. "R<n>" is a rule of spec/, "D<n>" a decision of 92_eei_decisions.md.
Where a statement rests on a passage that the spec marks as its own decision or as general knowledge, its docstring
says so. -/

open Sys2Proof Sys2Proof.Machine

/-! ## Encoding and decoding (30_encoding.md; the byte map is the spec's own, D1 and D2) -/

/-- Decoding the encoding of any well-formed instruction, with any bytes after it, gives back the instruction and
those bytes. The map is the spec's own choice (D1, D2). -/
def Obligations.DecodeOfEncodeIsTheInstruction : Prop :=
  ∀ (i : Instr) (rest : List Byte), i.wellFormed = true → decode (encode i ++ rest) = .ok (i, rest)

/-- Whatever bytes decode, they decode to a well-formed instruction, and encoding it gives those bytes back. The map
is the spec's own choice (D1, D2). -/
def Obligations.EncodeOfDecodeIsTheBytes : Prop :=
  ∀ (bytes : List Byte) (i : Instr) (rest : List Byte), decode bytes = .ok (i, rest) →
    i.wellFormed = true ∧ encode i ++ rest = bytes

/-- Three bytes decode to a decode failure, of whatever byte, exactly when the first of them is one of the twelve (R103;
which bytes they are is the spec's own choice, D1 and D6), so that no CB-space byte and no immediate byte gives one (R83,
R301); and the failure is then that of the first byte: STOP for 0x10, the undefined byte for the other eleven. -/
def Obligations.ExactlyTwelveFirstBytesFailToDecode : Prop :=
  ∀ b0 b1 b2 : Byte,
    ((decodeBytes b0 b1 b2 = .stop ∨ ∃ op : Byte, decodeBytes b0 b1 b2 = .undefined op) ↔ b0 ∈ failingBytes) ∧
    (b0 ∈ failingBytes → decodeBytes b0 b1 b2 = if b0 = 0x10#8 then .stop else .undefined b0)

/-- Words written out from the encodings of the instruction rules (the map is the spec's own choice, D1). -/
def Obligations.WrittenOutWordsDecode : Prop :=
  decode [0b10000000#8] = .ok (.addA (.loc (.reg .b)), []) ∧
  decode [0xC6#8, 0xFF#8] = .ok (.addA (.imm 0xFF#8), []) ∧
  decode [0b00110101#8] = .ok (.dec8 .indHl, []) ∧
  decode [0b00011001#8] = .ok (.addHl .de, []) ∧
  decode [0xE8#8, 0x02#8] = .ok (.addSp 0x02#8, []) ∧
  decode [0x17#8] = .ok (.rla, []) ∧
  decode [0xCB#8, 0b01111100#8] = .ok (.bit 7#3 (.reg .h), []) ∧
  decode [0xCB#8, 0xCB#8] = .ok (.setBit 1#3 (.reg .e), []) ∧
  decode [0x20#8, 0xFE#8] = .ok (.jrCc .nz 0xFE#8, []) ∧
  decode [0xCD#8, 0x34#8, 0x12#8] = .ok (.call 0x1234#16, []) ∧
  decode [0x01#8, 0x69#8, 0x69#8] = .ok (.ldRrD16 .bc 0x6969#16, []) ∧
  decode [0b11110001#8] = .ok (.pop .af, []) ∧
  decode [0x76#8] = .ok (.halt, []) ∧
  decode [0xD3#8] = .ok (.undefined 0xD3#8, [])

/-- PREFIX is never executed alone: it is the CB-space instruction of its second byte, and that one always completes,
for all 256 second bytes (R83, R287; the map is the spec's own choice, D1). -/
def Obligations.PrefixRunsTheNamedInstruction : Prop :=
  ∀ (op2 : Byte) (s : State), exec (.prefixCb op2) s = exec (decodeCb op2) s ∧ ∃ t, exec (.prefixCb op2) s = .next t

/-! ## The step (45_system.md) -/

/-- A step of a running core whose next bytes are the encoding of an instruction is `exec` of that instruction, with
PC past it and its instruction-stream reads, in address order, on the bus (R281, R60, R86; that PC wraps is the spec's own
choice, D17). -/
def Obligations.StepRunsTheEncodedInstruction : Prop :=
  ∀ (i : Instr) (s : State), s.halted = false → i.wellFormed = true → s.fetchesBytes s.pc (encode i) →
    step s = exec i { s with
      pc := s.pc + BitVec.ofNat 16 (encode i).length
      bus := s.fetches (encode i).length s.pc }

/-- A step of a halted core changes nothing and makes no bus access of either kind (R280; that there is no access is
the spec's own choice, D21). -/
def Obligations.StepOfHaltedCoreDoesNothing : Prop :=
  ∀ s : State, s.halted = true → step s = .next { s with bus := [] }

/-- No sequence of environment events without a reset takes a core out of `halted` or changes one of its registers or
IME (R34, R280, R323). -/
def Obligations.OnlyResetLeavesHalted : Prop :=
  ∀ (events : List EnvEvent) (s : State), s.halted = true → EnvEvent.reset ∉ events →
    (environmentRun events s).halted = true ∧ (environmentRun events s).ime = s.ime ∧
      ∀ r : R16, (environmentRun events s).r16 r = s.r16 r

/-- A step either fails to decode, exactly when the core runs and the byte at PC is one of the twelve, with
`UnknownOpcode` of that byte, or completes with a next state: it never ends otherwise (R301, R303, R7; the list of
bytes is the spec's own choice, D1 and D6). -/
def Obligations.StepFaultsExactlyOnFailingBytes : Prop :=
  ∀ s : State,
    (s.halted = false ∧ s.ipeek s.pc ∈ failingBytes → step s = .fault (.unknownOpcode (s.ipeek s.pc))) ∧
    (s.halted = true ∨ s.ipeek s.pc ∉ failingBytes → ∃ t, step s = .next t)

/-- A failed step leaves the whole state as it was, PC at the byte; its one bus access is the instruction-stream read of
the byte; it is done, the fault port reports code 1 and the byte; and stepping again reports the same. A step that
completes, a step in `halted` among them, is done with no fault: valid 0, code 0, byte 0; so reads the fault port after
reset. After every event the `dbg` ports show the six 16-bit registers, the `ime` and `halted` ports the two bits, and the bus
ports the accesses made (R8, R301, R302, R305, R312, R322; that PC stays is the spec's own choice, D7, and so are the
codes, D23, and the ports, D20). -/
def Obligations.FailedStepIsAtomicAndRepeats : Prop :=
  (∀ s : State, s.halted = false → s.ipeek s.pc ∈ failingBytes →
    (environment .step s).1 = { s with bus := [.ifetch s.pc (s.ipeek s.pc)] } ∧
    (environment .step s).2.done = true ∧
    (environment .step s).2.faultValid = true ∧
    (environment .step s).2.faultCode = 1#3 ∧
    (environment .step s).2.faultByte = s.ipeek s.pc ∧
    environment .step (environment .step s).1 = environment .step s) ∧
  (∀ s t : State, step s = .next t →
    (environment .step s).1 = t ∧ (environment .step s).2.done = true ∧
    (environment .step s).2.faultValid = false ∧ (environment .step s).2.faultCode = 0#3 ∧
    (environment .step s).2.faultByte = 0x00#8) ∧
  (∀ s : State, (environment .reset s).2.faultValid = false ∧ (environment .reset s).2.faultCode = 0#3 ∧
    (environment .reset s).2.faultByte = 0x00#8) ∧
  (∀ (event : EnvEvent) (s : State),
    let t := (environment event s).1
    let ports := (environment event s).2
    ports.dbgAf = t.r16 .af ∧ ports.dbgBc = t.r16 .bc ∧ ports.dbgDe = t.r16 .de ∧ ports.dbgHl = t.r16 .hl ∧
      ports.dbgSp = t.sp ∧ ports.dbgPc = t.pc ∧ ports.ime = t.ime ∧ ports.halted = t.halted ∧
      ports.accesses = t.bus)

/-! ## Reset (10_state.md R37, 70_reset_and_hazards.md) -/

/-- Reset puts every register at the value of its profile, leaves memory and parameters as they are, makes no bus access
and reports no fault (R37, R340). The register values are the source's; IME and `halted` are the spec's own choice (D4),
and which profile is the parameter (D3). -/
def Obligations.ResetGivesTheProfileValues : Prop :=
  ∀ s : State,
    (environment .reset s).2.faultValid = false ∧
    (s.config.resetProfile = .zero →
      (environment .reset s).1 = { s with
        a := 0x00#8, f := 0x00#8, b := 0x00#8, c := 0x00#8, d := 0x00#8, e := 0x00#8, h := 0x00#8, l := 0x00#8,
        sp := 0x0000#16, pc := 0x0000#16, ime := false, halted := false, bus := [] }) ∧
    (s.config.resetProfile = .postboot →
      (environment .reset s).1.r16 .af = 0x01B0#16 ∧ (environment .reset s).1.r16 .bc = 0x0013#16 ∧
      (environment .reset s).1.r16 .de = 0x00D8#16 ∧ (environment .reset s).1.r16 .hl = 0x014D#16 ∧
      (environment .reset s).1.sp = 0xFFFE#16 ∧ (environment .reset s).1.pc = 0x0100#16 ∧
      (environment .reset s).1.ime = false ∧ (environment .reset s).1.halted = false ∧
      (environment .reset s).1.mem = s.mem ∧ (environment .reset s).1.imem = s.imem ∧
      (environment .reset s).1.config = s.config ∧ (environment .reset s).1.bus = [])

/-- The state after reset satisfies the invariant, for every value of the parameters. -/
def Obligations.ResetSatisfiesTheInvariant : Prop :=
  State.reset.Inv ∧ ∀ config : Config, (State.resetFor config).Inv

/-! ## Statements about the whole machine -/

/-- From every state in which the memories are in canonical form and F's low nibble is 0, every step that completes
leads to such a state (R26, R38a; the canonical form is the model's). -/
def Obligations.EveryStepKeepsTheInvariant : Prop :=
  ∀ s t : State, s.Inv → step s = .next t → t.Inv

/-- No step changes the parameters; no instruction writes the instruction memory of FetchSpace `split` (R10, R52, R346;
the parameter itself is the spec's D18). -/
def Obligations.NoStepWritesParametersOrSplitCode : Prop :=
  ∀ s t : State, step s = .next t → t.config = s.config ∧ t.imem = s.imem ∧
    (s.config.fetchSpace = .split → ∀ addr : Word, t.ipeek addr = s.ipeek addr)

/-- With FetchSpace `unified`, what a step wrote last at an address is what the next fetch from it gives, with nothing
in between (R68, R346, R65; the default of the parameter is the spec's D18). -/
def Obligations.StoresAreSeenByTheNextFetch : Prop :=
  ∀ s t : State, s.mem.wf = true → s.config.fetchSpace = .unified → step s = .next t →
    ∀ addr : Word, t.ipeek addr = latestWrite addr (s.ipeek addr) t.bus

/-- After a step each byte of data memory is what the step's last write to it put there, or what it was (R61, R65; that
every address keeps what is written is the model's choice, entry 2). -/
def Obligations.MemoryChangesExactlyByBusWrites : Prop :=
  ∀ s t : State, s.mem.wf = true → step s = .next t →
    ∀ addr : Word, t.peek addr = latestWrite addr (s.peek addr) t.bus

/-- Every read of a step, of data or of the instruction stream, is answered by what that memory held when the step began
(R52, R53, R60, R65: no access of a step reads what the same step wrote). -/
def Obligations.BusReadsAnswerWhatMemoryHeld : Prop :=
  ∀ s t : State, step s = .next t → ∀ access ∈ t.bus, access.answeredBy s

/-- The bus accesses of a completed step are exactly the instruction-stream reads of the instruction, at increasing
address, and then the data accesses of R59's table, in its order, each once (R59, R60, R61; the order of the data
accesses and of the two bytes of a word is the spec's own choice, D19). -/
def Obligations.BusTraceIsFetchesThenTabledAccesses : Prop :=
  ∀ (i : Instr) (s t : State), s.halted = false → i.wellFormed = true → s.fetchesBytes s.pc (encode i) →
    step s = .next t →
    ∃ accesses : List BusAccess, t.bus = s.fetches (encode i).length s.pc ++ accesses ∧
      accesses.map BusAccess.toData = (dataAccesses i s).map some

/-- An instruction leaves every flag that R39's table does not name for it (the flags an instruction's text does not
mention are unchanged by the spec's own choice, D16). -/
def Obligations.FlagsChangeOnlyAsTabled : Prop :=
  ∀ (i : Instr) (s t : State), exec i s = .next t → ∀ x : Flag, x ∉ flagsWritten i → t.flag x = s.flag x

/-- An instruction leaves every general register that R32's table does not name for it, SP if it is not one of R31's, and
PC (past the instruction) if it is not a control transfer (R30, R31, R32). -/
def Obligations.RegistersChangeOnlyAsTabled : Prop :=
  ∀ (i : Instr) (s t : State), exec i s = .next t →
    (∀ r : R8, r ≠ .f → r ∉ regsWritten i → t.r8 r = s.r8 r) ∧
    (writesSp i = false → t.sp = s.sp) ∧ (writesPc i = false → t.pc = s.pc)

/-- `halted` is set by HALT and by nothing else, and no instruction clears it (R34, R285; that HALT is the way in is the
spec's own choice, D5). -/
def Obligations.OnlyHaltEntersHalted : Prop :=
  ∀ (i : Instr) (s t : State), exec i s = .next t → t.halted = (s.halted || decide (i = .halt))

/-- R33: DI clears IME, EI and RETI set it, reset clears it, every other instruction leaves it; no instruction reads it
(its effect is the same whatever IME is); it is on the `ime` port. -/
def Obligations.ImeIsWrittenByThreeAndReadByNone : Prop :=
  (∀ (i : Instr) (s t : State), exec i s = .next t →
    t.ime = if i = .di then false else if i = .ei ∨ i = .reti then true else s.ime) ∧
  (∀ (i : Instr) (s t : State) (ime : Bool), exec i s = .next t →
    ∃ u, exec i { s with ime := ime } = .next u ∧ { u with ime := t.ime } = t) ∧
  (∀ (i : Instr) (s : State) (ime : Bool) (r : Fault), exec i s = .fault r →
    exec i { s with ime := ime } = .fault r) ∧
  (∀ s : State, (environment .reset s).1.ime = false) ∧
  (∀ (event : EnvEvent) (s : State), (environment event s).2.ime = (environment event s).1.ime)

/-! ## Register, flag and bus primitives -/

/-- R22: writing the 8-bit register X replaces X and leaves every other bit of state; F takes `v & 0xF0`. -/
def Obligations.EightBitWriteChangesOneRegister : Prop :=
  ∀ (s : State) (x : R8) (v : Byte),
    (s.setR8 x v).r8 x = (if x = .f then v &&& 0xF0#8 else v) ∧
    (∀ y : R8, y ≠ x → (s.setR8 x v).r8 y = s.r8 y) ∧
    (s.setR8 x v).sp = s.sp ∧ (s.setR8 x v).pc = s.pc ∧ (s.setR8 x v).ime = s.ime ∧
    (s.setR8 x v).halted = s.halted ∧ (s.setR8 x v).mem = s.mem ∧ (s.setR8 x v).imem = s.imem ∧
    (s.setR8 x v).config = s.config

/-- R24, R25: writing the 16-bit register XY replaces XY and leaves every other bit of state; AF takes `v & 0xFFF0`; a
pair is its two halves, before and after. -/
def Obligations.SixteenBitWriteChangesOneRegister : Prop :=
  ∀ (s : State) (x : R16) (v : Word),
    (s.setR16 x v).r16 x = (if x = .af then v &&& 0xFFF0#16 else v) ∧
    (∀ y : R16, y ≠ x → (s.setR16 x v).r16 y = s.r16 y) ∧
    (s.setR16 x v).ime = s.ime ∧ (s.setR16 x v).halted = s.halted ∧ (s.setR16 x v).mem = s.mem ∧
    (s.setR16 x v).imem = s.imem ∧ (s.setR16 x v).config = s.config ∧
    s.r16 .af = s.r8 .a ++ s.r8 .f ∧ s.r16 .bc = s.r8 .b ++ s.r8 .c ∧ s.r16 .de = s.r8 .d ++ s.r8 .e ∧
    s.r16 .hl = s.r8 .h ++ s.r8 .l ∧
    (s.setR16 .af v).r8 .a = v.extractLsb' 8 8 ∧ (s.setR16 .af v).r8 .f = v.extractLsb' 0 8 &&& 0xF0#8 ∧
    (s.setR16 .bc v).r8 .b = v.extractLsb' 8 8 ∧ (s.setR16 .bc v).r8 .c = v.extractLsb' 0 8 ∧
    (s.setR16 .de v).r8 .d = v.extractLsb' 8 8 ∧ (s.setR16 .de v).r8 .e = v.extractLsb' 0 8 ∧
    (s.setR16 .hl v).r8 .h = v.extractLsb' 8 8 ∧ (s.setR16 .hl v).r8 .l = v.extractLsb' 0 8

/-- The flags are bits 7, 6, 5, 4 of F, the other bits of F read 0; a flag write writes the flags given, keeps those
written `-`, and leaves every other register, SP and PC among them, and every other bit of state (R26 to R28). -/
def Obligations.FlagWriteChangesOnlyTheFlagsGiven : Prop :=
  ∀ (s : State) (z n h c : Option Bool),
    FlagsAre (s.setFlags z n h c) (z.getD (s.flag .z)) (n.getD (s.flag .n)) (h.getD (s.flag .h))
      (c.getD (s.flag .c)) ∧
    (∀ y : R8, y ≠ .f → (s.setFlags z n h c).r8 y = s.r8 y) ∧
    (s.setFlags z n h c).sp = s.sp ∧ (s.setFlags z n h c).pc = s.pc ∧ (s.setFlags z n h c).ime = s.ime ∧
    (s.setFlags z n h c).halted = s.halted ∧ (s.setFlags z n h c).mem = s.mem ∧
    (s.setFlags z n h c).imem = s.imem ∧ (s.setFlags z n h c).config = s.config ∧
    FlagsAre s ((s.r8 .f).getLsbD 7) ((s.r8 .f).getLsbD 6) ((s.r8 .f).getLsbD 5) ((s.r8 .f).getLsbD 4) ∧
    s.r8 .f &&& 0x0F#8 = 0#8

/-- R29: the four condition codes. -/
def Obligations.ConditionCodesReadZAndC : Prop :=
  ∀ s : State, (s.cond .nz = true ↔ s.flag .z = false) ∧ (s.cond .z = true ↔ s.flag .z = true) ∧
    (s.cond .nc = true ↔ s.flag .c = false) ∧ (s.cond .c = true ↔ s.flag .c = true)

/-- R86, R87: `fetch8` reads the instruction-stream byte at PC and moves PC on by 1; `fetch16` does it twice, the low
byte first. That PC wraps is the spec's own choice (D17). -/
def Obligations.FetchReadsAtPcAndAdvancesIt : Prop :=
  ∀ s : State,
    s.fetch8 = (s.ipeek s.pc, { s with pc := s.pc + 1#16, bus := s.bus ++ [.ifetch s.pc (s.ipeek s.pc)] }) ∧
    s.fetch16 = (s.ipeek (s.pc + 1#16) ++ s.ipeek s.pc,
      { s with
        pc := s.pc + 2#16
        bus := s.bus ++ [.ifetch s.pc (s.ipeek s.pc), .ifetch (s.pc + 1#16) (s.ipeek (s.pc + 1#16))] })

/-- A word written to memory has its low byte at the address and its high byte at the next, modulo 65536, the low byte
written first; no other byte changes; reading the word there gives it back, low byte read first (R55 to R57; the wrap and
the order of the writes are the spec's own choice, D17 and D19). -/
def Obligations.WordAccessIsLittleEndian : Prop :=
  ∀ (s : State) (addr v : Word), s.mem.wf = true →
    (s.memWrite16 addr v).peek addr = v.extractLsb' 0 8 ∧
    (s.memWrite16 addr v).peek (addr + 1#16) = v.extractLsb' 8 8 ∧
    (∀ other : Word, other ≠ addr → other ≠ addr + 1#16 → (s.memWrite16 addr v).peek other = s.peek other) ∧
    (s.memWrite16 addr v).bus =
      s.bus ++ [.write addr (v.extractLsb' 0 8), .write (addr + 1#16) (v.extractLsb' 8 8)] ∧
    ((s.memWrite16 addr v).memRead16 addr).1 = v ∧
    (s.memRead16 addr).2.bus =
      s.bus ++ [.read addr (s.peek addr), .read (addr + 1#16) (s.peek (addr + 1#16))]

/-! ## 8-bit arithmetic and logic (40_alu8.md) -/

/-- R120 (R124 to R129): ADD and ADC of every operand form complete; A is the sum modulo 256 with the carry-in (0, or the
C flag), Z is result = 0, N is 0, H and C are the carries out of bits 3 and 7, the carry-in taking part in both; nothing
else changes. -/
def Obligations.AddAndAdcGiveSumAndCarries : Prop :=
  ∀ (s : State) (x : Src8) (withCarry : Bool),
    let cin := (withCarry && s.flag .c).toNat
    let sum := s.a.toNat + (s.srcValue x).toNat + cin
    ∃ t, exec (if withCarry then .adcA x else .addA x) s = .next t ∧
      AluEffect s t x (BitVec.ofNat 8 sum) (decide (sum % 256 = 0)) false
        (decide ((s.a &&& 0x0F#8).toNat + (s.srcValue x &&& 0x0F#8).toNat + cin > 0xF)) (decide (sum > 0xFF))

/-- R121 (R130 to R135, R145 to R147): SUB, SBC and CP of every operand form complete; the difference is modulo 256 with
the borrow-in (0, or for SBC the C flag), Z is result = 0, N is 1, H and C are the borrows into bits 3 and 7, compared
without wrap; SUB and SBC write the difference to A, CP leaves A; nothing else changes. -/
def Obligations.SubSbcAndCpGiveDifferenceAndBorrows : Prop :=
  ∀ (s : State) (x : Src8),
    let b := s.srcValue x
    let cin := (s.flag .c).toNat
    (∃ t, exec (.subA x) s = .next t ∧
      AluEffect s t x (s.a - b) (decide (s.a = b)) true (decide ((s.a &&& 0x0F#8).toNat < (b &&& 0x0F#8).toNat))
        (decide (s.a.toNat < b.toNat))) ∧
    (∃ t, exec (.sbcA x) s = .next t ∧
      AluEffect s t x (s.a - b - BitVec.ofNat 8 cin) (decide (s.a - b - BitVec.ofNat 8 cin = 0#8)) true
        (decide ((s.a &&& 0x0F#8).toNat < (b &&& 0x0F#8).toNat + cin)) (decide (s.a.toNat < b.toNat + cin))) ∧
    (∃ t, exec (.cpA x) s = .next t ∧
      AluEffect s t x s.a (decide (s.a = b)) true (decide ((s.a &&& 0x0F#8).toNat < (b &&& 0x0F#8).toNat))
        (decide (s.a.toNat < b.toNat)))

/-- AND, XOR and OR of every operand form complete with the bitwise result in A, Z from the result, N and C 0, and H 1
for AND, 0 for XOR and OR; nothing else changes (R136 to R144). -/
def Obligations.AndXorOrGiveBitwiseResult : Prop :=
  ∀ (s : State) (x : Src8),
    (∃ t, exec (.andA x) s = .next t ∧
      AluEffect s t x (s.a &&& s.srcValue x) (decide (s.a &&& s.srcValue x = 0#8)) false true false) ∧
    (∃ t, exec (.xorA x) s = .next t ∧
      AluEffect s t x (s.a ^^^ s.srcValue x) (decide (s.a = s.srcValue x)) false false false) ∧
    (∃ t, exec (.orA x) s = .next t ∧
      AluEffect s t x (s.a ||| s.srcValue x) (decide (s.a = 0#8 ∧ s.srcValue x = 0#8)) false false false)

/-- 8-bit INC and DEC of a register or `(HL)` complete; the operand moves by 1 modulo 256; Z from the result; N 0 for INC
and 1 for DEC; H when the low nibble was 0xF (INC) or 0x0 (DEC); C and everything else unchanged (R148 to R151). -/
def Obligations.Inc8AndDec8StepTheOperand : Prop :=
  ∀ (s : State) (x : Loc8), s.mem.wf = true →
    let v := s.locValue x
    (∃ t, exec (.inc8 x) s = .next t ∧ LocEffect s t x (v + 1#8) [.z, .n, .h] ∧
      FlagsAre t (decide (v = 0xFF#8)) false (decide (v &&& 0x0F#8 = 0x0F#8)) (s.flag .c)) ∧
    (∃ t, exec (.dec8 x) s = .next t ∧ LocEffect s t x (v - 1#8) [.z, .n, .h] ∧
      FlagsAre t (decide (v = 0x01#8)) true (decide (v &&& 0x0F#8 = 0x00#8)) (s.flag .c))

/-- DAA completes: with N = 0 it adds 0x60 when C or A > 0x99 (and sets C) and 0x06 when H or the low digit is above 9;
with N = 1 it subtracts 0x60 when C and 0x06 when H (C unchanged); Z from the corrected A, H 0 (R152). That N is unchanged
is the spec's own choice (D16). -/
def Obligations.DaaCorrectsTheAccumulator : Prop :=
  ∀ s : State,
    let high := s.flag .c || (!s.flag .n && decide (s.a.toNat > 0x99))
    let low := s.flag .h || (!s.flag .n && decide ((s.a &&& 0x0F#8).toNat > 9))
    let adj := (if high then 0x60 else 0) + (if low then 0x06 else 0)
    ∃ t, exec .daa s = .next t ∧
      t.a.toNat = (if s.flag .n then (s.a.toNat + 256 - adj) % 256 else (s.a.toNat + adj) % 256) ∧
      FlagsAre t (decide (t.a = 0#8)) (s.flag .n) false high ∧
      RegEffect s t [.a] [.z, .h, .c] ∧ t.sp = s.sp ∧ t.pc = s.pc

/-- DAA after an 8-bit ADD of two packed-BCD bytes gives the packed-BCD sum modulo 100, with C when the sum is 100 or
more; after SUB, the packed-BCD difference modulo 100, with C when it borrowed (R152: "corrects register A to valid
packed-BCD after an 8-bit add/subtract"). -/
def Obligations.DaaGivesPackedBcdAfterAddAndSub : Prop :=
  ∀ (s : State) (x y : Nat), x < 100 → y < 100 → s.a = BitVec.ofNat 8 (x / 10 * 16 + x % 10) →
    (∃ t u, exec (.addA (.imm (BitVec.ofNat 8 (y / 10 * 16 + y % 10)))) s = .next t ∧ exec .daa t = .next u ∧
      u.a = BitVec.ofNat 8 ((x + y) % 100 / 10 * 16 + (x + y) % 100 % 10) ∧ u.flag .c = decide (x + y ≥ 100)) ∧
    (∃ t u, exec (.subA (.imm (BitVec.ofNat 8 (y / 10 * 16 + y % 10)))) s = .next t ∧ exec .daa t = .next u ∧
      u.a = BitVec.ofNat 8 ((x + 100 - y) % 100 / 10 * 16 + (x + 100 - y) % 100 % 10) ∧
      u.flag .c = decide (x < y))

/-- CPL complements A and sets N and H; SCF sets C and CCF inverts it, both clearing N and H; each completes and changes
nothing else (R153 to R155). That Z, and for CPL also C, is unchanged is the spec's own choice (D16). -/
def Obligations.CplScfAndCcfWriteTheirFlags : Prop :=
  ∀ s : State,
    (∃ t, exec .cpl s = .next t ∧ t.a = s.a ^^^ 0xFF#8 ∧ FlagsAre t (s.flag .z) true true (s.flag .c) ∧
      RegEffect s t [.a] [.n, .h] ∧ t.sp = s.sp ∧ t.pc = s.pc) ∧
    (∃ t, exec .scf s = .next t ∧ FlagsAre t (s.flag .z) false false true ∧
      RegEffect s t [] [.n, .h, .c] ∧ t.sp = s.sp ∧ t.pc = s.pc) ∧
    (∃ t, exec .ccf s = .next t ∧ FlagsAre t (s.flag .z) false false (!s.flag .c) ∧
      RegEffect s t [] [.n, .h, .c] ∧ t.sp = s.sp ∧ t.pc = s.pc)

/-! ## 16-bit arithmetic (41_alu16.md) -/

/-- ADD HL,rr completes for each of BC, DE, HL, SP: HL is the sum modulo 65536, Z unchanged, N 0, H and C the carries
out of bits 11 and 15; nothing else changes (R170). -/
def Obligations.AddHlGivesSumAndCarries : Prop :=
  ∀ (s : State) (rr : RegPair),
    let a := s.r16 .hl
    let b := s.r16 (pairOf rr)
    ∃ t, exec (.addHl rr) s = .next t ∧ t.r16 .hl = a + b ∧
      FlagsAre t (s.flag .z) false (decide ((a &&& 0x0FFF#16).toNat + (b &&& 0x0FFF#16).toNat > 0xFFF))
        (decide (a.toNat + b.toNat > 0xFFFF)) ∧
      RegEffect s t [.h, .l] [.n, .h, .c] ∧ t.sp = s.sp ∧ t.pc = s.pc

/-- 16-bit INC and DEC complete for each of BC, DE, HL, SP: the register moves by 1 modulo 65536, and no flag, no other
register and no byte of memory changes (R171, R172; no flag effect is the spec's reading, D15). -/
def Obligations.Inc16AndDec16TouchNoFlag : Prop :=
  ∀ (s : State) (rr : RegPair),
    (∃ t, exec (.inc16 rr) s = .next t ∧ t.r16 (pairOf rr) = s.r16 (pairOf rr) + 1#16 ∧
      (∀ y : R16, y ≠ pairOf rr → t.r16 y = s.r16 y) ∧ RegEffect s t (pairHalves (pairOf rr)) []) ∧
    (∃ t, exec (.dec16 rr) s = .next t ∧ t.r16 (pairOf rr) = s.r16 (pairOf rr) - 1#16 ∧
      (∀ y : R16, y ≠ pairOf rr → t.r16 y = s.r16 y) ∧ RegEffect s t (pairHalves (pairOf rr)) [])

/-- ADD SP,r8 and LD HL,SP+r8 complete: the result is SP plus the signed byte modulo 65536; Z and N are 0; H and C are
the carries out of bits 3 and 7 of the sum of SP's low byte and the byte taken unsigned; the other of SP and HL, and
everything else, is unchanged (R173 to R175: general knowledge and the spec's own choice, D12). -/
def Obligations.AddSpAndLdHlSpUseLowByteCarries : Prop :=
  ∀ (s : State) (e : Byte),
    let res := BitVec.ofInt 16 ((s.sp.toNat : Int) + e.toInt)
    let h := decide ((s.sp &&& 0x000F#16).toNat + (e &&& 0x0F#8).toNat > 0xF)
    let c := decide ((s.sp &&& 0x00FF#16).toNat + e.toNat > 0xFF)
    (∃ t, exec (.addSp e) s = .next t ∧ t.sp = res ∧ FlagsAre t false false h c ∧
      RegEffect s t [] [.z, .n, .h, .c] ∧ t.pc = s.pc) ∧
    (∃ t, exec (.ldHlSp e) s = .next t ∧ t.r16 .hl = res ∧ FlagsAre t false false h c ∧
      RegEffect s t [.h, .l] [.z, .n, .h, .c] ∧ t.sp = s.sp ∧ t.pc = s.pc)

/-! ## Rotates, shifts, bits (42_rotate_shift_bit.md) -/

/-- RLCA, RRCA, RLA, RRA complete: A rotates by one place, in itself or (RLA, RRA) as the nine bits C and A; C takes the bit
that left; Z, N and H are 0 even when A is 0; nothing else changes (R190 to R193, R180 to R183: general knowledge and the
spec's own choice, D11 and D22). -/
def Obligations.AccumulatorRotatesClearZ : Prop :=
  ∀ s : State,
    (∃ t, exec .rlca s = .next t ∧ t.a = s.a.rotateLeft 1 ∧ FlagsAre t false false false s.a.msb ∧
      RegEffect s t [.a] [.z, .n, .h, .c] ∧ t.sp = s.sp ∧ t.pc = s.pc) ∧
    (∃ t, exec .rrca s = .next t ∧ t.a = s.a.rotateRight 1 ∧ FlagsAre t false false false (s.a.getLsbD 0) ∧
      RegEffect s t [.a] [.z, .n, .h, .c] ∧ t.sp = s.sp ∧ t.pc = s.pc) ∧
    (∃ t, exec .rla s = .next t ∧
      BitVec.ofBool (t.flag .c) ++ t.a = (BitVec.ofBool (s.flag .c) ++ s.a).rotateLeft 1 ∧
      FlagsAre t false false false s.a.msb ∧ RegEffect s t [.a] [.z, .n, .h, .c] ∧ t.sp = s.sp ∧ t.pc = s.pc) ∧
    (∃ t, exec .rra s = .next t ∧
      BitVec.ofBool (t.flag .c) ++ t.a = (BitVec.ofBool (s.flag .c) ++ s.a).rotateRight 1 ∧
      FlagsAre t false false false (s.a.getLsbD 0) ∧ RegEffect s t [.a] [.z, .n, .h, .c] ∧ t.sp = s.sp ∧
      t.pc = s.pc)

/-- RLC, RRC, RL, RR of a register or `(HL)` complete: the operand rotates by one place, in itself or (RL, RR) through C;
Z from the result, N and H 0, C the bit that left; nothing else changes (R194 to R201; the result bits are the spec's own
choice, D22). -/
def Obligations.CbRotatesGiveResultAndCarry : Prop :=
  ∀ (s : State) (x : Loc8), s.mem.wf = true →
    let v := s.locValue x
    let left := (v <<< 1) ||| (if s.flag .c then 0x01#8 else 0#8)
    let right := (v >>> 1) ||| (if s.flag .c then 0x80#8 else 0#8)
    (∃ t, exec (.rlc x) s = .next t ∧ LocEffect s t x (v.rotateLeft 1) [.z, .n, .h, .c] ∧
      FlagsAre t (decide (v = 0#8)) false false v.msb) ∧
    (∃ t, exec (.rrc x) s = .next t ∧ LocEffect s t x (v.rotateRight 1) [.z, .n, .h, .c] ∧
      FlagsAre t (decide (v = 0#8)) false false (v.getLsbD 0)) ∧
    (∃ t, exec (.rl x) s = .next t ∧ LocEffect s t x left [.z, .n, .h, .c] ∧
      FlagsAre t (decide (left = 0#8)) false false v.msb) ∧
    (∃ t, exec (.rr x) s = .next t ∧ LocEffect s t x right [.z, .n, .h, .c] ∧
      FlagsAre t (decide (right = 0#8)) false false (v.getLsbD 0))

/-- SLA, SRA, SWAP, SRL of a register or `(HL)` complete: doubled modulo 256; halved keeping the sign; nibbles exchanged;
halved unsigned; Z from the result, N and H 0, C the bit that left (0 for SWAP); nothing else changes (R202 to R209; the
result bits are the spec's own choice, D22). -/
def Obligations.CbShiftsGiveResultAndCarry : Prop :=
  ∀ (s : State) (x : Loc8), s.mem.wf = true →
    let v := s.locValue x
    (∃ t, exec (.sla x) s = .next t ∧ LocEffect s t x (v + v) [.z, .n, .h, .c] ∧
      FlagsAre t (decide (v + v = 0#8)) false false v.msb) ∧
    (∃ t, exec (.sra x) s = .next t ∧ LocEffect s t x (v.sshiftRight 1) [.z, .n, .h, .c] ∧
      FlagsAre t (decide (v.sshiftRight 1 = 0#8)) false false (v.getLsbD 0)) ∧
    (∃ t, exec (.swap x) s = .next t ∧ LocEffect s t x (v.rotateLeft 4) [.z, .n, .h, .c] ∧
      FlagsAre t (decide (v = 0#8)) false false false) ∧
    (∃ t, exec (.srl x) s = .next t ∧ LocEffect s t x (BitVec.ofNat 8 (v.toNat / 2)) [.z, .n, .h, .c] ∧
      FlagsAre t (decide (v.toNat < 2)) false false (v.getLsbD 0))

/-- BIT of every bit of a register or `(HL)` completes: Z is 1 when the bit is 0, N 0, H 1, C unchanged; the operand is
read, once, and not written; nothing else changes (R210, R211; that bit 0 is the least significant is the spec's own choice,
D27). -/
def Obligations.BitTestsAndWritesNothing : Prop :=
  ∀ (s : State) (b : BitVec 3) (x : Loc8),
    ∃ t, exec (.bit b x) s = .next t ∧
      FlagsAre t (decide ((s.locValue x).toNat / 2 ^ b.toNat % 2 = 0)) false true (s.flag .c) ∧
      Frame s t [] [.z, .n, .h] [] ∧ SameControl s t ∧ t.pc = s.pc ∧ t.bus = s.bus ++ s.locReads x

/-- RES and SET of every bit of a register or `(HL)` complete: that bit becomes 0 or 1, every other bit of the operand and
every flag keep their value; nothing else changes (R212 to R215; that bit 0 is the least significant is the spec's own
choice, D27). -/
def Obligations.ResAndSetChangeOneBit : Prop :=
  ∀ (s : State) (b : BitVec 3) (x : Loc8), s.mem.wf = true →
    (∃ t res, exec (.res b x) s = .next t ∧ LocEffect s t x res [] ∧
      ∀ k < 8, res.getLsbD k = ((s.locValue x).getLsbD k && decide (k ≠ b.toNat))) ∧
    (∃ t res, exec (.setBit b x) s = .next t ∧ LocEffect s t x res [] ∧
      ∀ k < 8, res.getLsbD k = ((s.locValue x).getLsbD k || decide (k = b.toNat)))

/-- R188: a CB-space instruction whose z field is not 6 works on the register the field names and makes no data access;
one whose z field is 6 makes exactly one read at HL and then, unless it is BIT, one write at the same address, and leaves HL.
The z and x fields and their codes (R90, R102) are the spec's own choice (D1, D2; entry 10). -/
def Obligations.CbOperandIsRegisterOrByteAtHl : Prop :=
  ∀ (op2 : Byte) (s : State), s.mem.wf = true → ∃ t, exec (decodeCb op2) s = .next t ∧
    (∀ r : Reg8, loc8Of (opZ op2) = .reg r →
      t.bus = s.bus ∧ t.mem = s.mem ∧ ∀ y : R8, y ≠ .f → y ≠ regOf r → t.r8 y = s.r8 y) ∧
    (opZ op2 = 6#3 →
      (∀ y : R8, y ≠ .f → t.r8 y = s.r8 y) ∧
      t.bus = s.bus ++ [.read (s.r16 .hl) (s.peek (s.r16 .hl))] ++
        (if opX op2 = 1#2 then [] else [.write (s.r16 .hl) (t.peek (s.r16 .hl))]))

/-! ## Control flow (43_control_flow.md) -/

/-- JP a16, JP HL and JR complete and change PC alone: to the address, to the value of HL (no memory access; the spec's own
choice, D31), and to PC past the instruction plus the signed displacement modulo 65536 (the wrap is the spec's own choice,
D17) (R221, R223, R224). -/
def Obligations.JumpsChangeOnlyPc : Prop :=
  ∀ (s : State) (a16 : Word) (e : Byte),
    exec (.jp a16) s = .next { s with pc := a16 } ∧
    exec .jpHl s = .next { s with pc := s.h ++ s.l } ∧
    exec (.jr e) s = .next { s with pc := BitVec.ofInt 16 ((s.pc.toNat : Int) + e.toInt) }

/-- A conditional jump, call or return whose condition is true completes as its unconditional form does; one whose
condition is false completes and changes nothing (R222, R225, R227, R229; the wrap of PC is the spec's own choice, D17). -/
def Obligations.ConditionalTransfersFollowTheirCondition : Prop :=
  ∀ (s : State) (cc : Cond) (a16 : Word) (e : Byte),
    exec (.jpCc cc a16) s = .next (if s.cond cc then { s with pc := a16 } else s) ∧
    exec (.jrCc cc e) s =
      .next (if s.cond cc then { s with pc := BitVec.ofInt 16 ((s.pc.toNat : Int) + e.toInt) } else s) ∧
    (∃ t, exec (.callCc cc a16) s = .next t ∧ if s.cond cc then exec (.call a16) s = .next t else t = s) ∧
    (∃ t, exec (.retCc cc) s = .next t ∧ if s.cond cc then exec .ret s = .next t else t = s)

/-- R220: a step of a conditional transfer that is not taken ends with PC at the next sequential instruction, has read every
byte of the instruction, has made no data access and has changed nothing else. -/
def Obligations.NotTakenTransferOnlyPassesItsBytes : Prop :=
  ∀ (s : State) (cc : Cond) (a16 : Word) (e : Byte) (i : Instr),
    i ∈ [Instr.jpCc cc a16, .jrCc cc e, .callCc cc a16, .retCc cc] →
    s.halted = false → s.fetchesBytes s.pc (encode i) → s.cond cc = false →
    step s = .next { s with
      pc := s.pc + BitVec.ofNat 16 (encode i).length
      bus := s.fetches (encode i).length s.pc }

/-- CALL and RST complete: SP is lower by 2 modulo 65536, the address of the byte after the instruction is at the new SP,
low byte first, PC is the target (for RST eight times its field), and nothing else changes (R226, R233, R270; RST is general
knowledge and the spec's own choice, D10; so are the wrap, D17, and which of the two bytes is written first, R56, D19;
entry 10). -/
def Obligations.CallAndRstPushTheReturnAddress : Prop :=
  ∀ (s : State) (a16 : Word) (y : BitVec 3) (i : Instr) (target : Word), s.mem.wf = true →
    (i = .call a16 ∧ target = a16) ∨ (i = .rst y ∧ target = BitVec.ofNat 16 (8 * y.toNat)) →
    ∃ t, exec i s = .next t ∧ t.pc = target ∧ t.sp = s.sp - 2#16 ∧
      t.peek (s.sp - 2#16) = s.pc.extractLsb' 0 8 ∧ t.peek (s.sp - 1#16) = s.pc.extractLsb' 8 8 ∧
      Frame s t [] [] [s.sp - 2#16, s.sp - 1#16] ∧ t.ime = s.ime ∧ t.halted = s.halted ∧
      t.bus = s.bus ++
        [.write (s.sp - 2#16) (s.pc.extractLsb' 0 8), .write (s.sp - 1#16) (s.pc.extractLsb' 8 8)]

/-- RET completes: PC is the word at SP, low byte at SP, SP is higher by 2 modulo 65536, and nothing else changes; RETI is RET
and sets IME (R228, R232, R271, R311; RETI is general knowledge and the spec's own choice, D9, the wrap is D17). -/
def Obligations.RetAndRetiPopPc : Prop :=
  ∀ (s : State) (i : Instr), i = .ret ∨ i = .reti →
    exec i s = .next { s with
      pc := s.peek (s.sp + 1#16) ++ s.peek s.sp
      sp := s.sp + 2#16
      ime := if i = .reti then true else s.ime
      bus := s.bus ++ [.read s.sp (s.peek s.sp), .read (s.sp + 1#16) (s.peek (s.sp + 1#16))] }

/-- CALL followed by RET comes back to the byte after the CALL with SP as it was and every register as it was, from every SP
(plain memory: entry 2; the wrap is the spec's own choice, D17) (R226, R228, R231). -/
def Obligations.RetAfterCallComesBack : Prop :=
  ∀ (s t : State) (a16 : Word), s.mem.wf = true → exec (.call a16) s = .next t →
    ∃ u, exec .ret t = .next u ∧ u.pc = s.pc ∧ u.sp = s.sp ∧ ∀ r : R8, u.r8 r = s.r8 r

/-! ## Loads and the stack (44_load_stack.md) -/

/-- The register loads LD r,r', LD r,d8, LD rr,d16, LD SP,HL complete: the destination takes the source, and no flag, no
other register and no byte of memory changes (R241, R242, R260, R262). -/
def Obligations.RegisterLoadsCopyTheirSource : Prop :=
  ∀ (s : State) (dst src : Reg8) (d8 : Byte) (rr : RegPair) (d16 : Word),
    (∃ t, exec (.ldRR dst src) s = .next t ∧ t.r8 (regOf dst) = s.r8 (regOf src) ∧
      RegEffect s t [regOf dst] [] ∧ t.sp = s.sp ∧ t.pc = s.pc) ∧
    (∃ t, exec (.ldRD8 dst d8) s = .next t ∧ t.r8 (regOf dst) = d8 ∧
      RegEffect s t [regOf dst] [] ∧ t.sp = s.sp ∧ t.pc = s.pc) ∧
    (∃ t, exec (.ldRrD16 rr d16) s = .next t ∧ t.r16 (pairOf rr) = d16 ∧
      RegEffect s t (pairHalves (pairOf rr)) [] ∧ (rr ≠ .sp → t.sp = s.sp) ∧ t.pc = s.pc) ∧
    (∃ t, exec .ldSpHl s = .next t ∧ t.sp = s.r16 .hl ∧ RegEffect s t [] [] ∧ t.pc = s.pc)

/-- The byte loads from memory, LD r,(HL), LD A,(BC), LD A,(DE), LD A,(a16), LDH A,(C), LDH A,(a8), complete: the register
takes the byte at the address the rule gives, read once; nothing else changes (R243, R246, R247, R250, R252, R254). -/
def Obligations.MemoryLoadsReadOneByte : Prop :=
  ∀ (s : State) (r : Reg8) (a16 : Word) (a8 : Byte) (i : Instr) (dst : R8) (addr : Word),
    (i, dst, addr) ∈ [(.ldRHl r, regOf r, s.h ++ s.l), (.ldABc, .a, s.b ++ s.c), (.ldADe, .a, s.d ++ s.e),
      (.ldAA16 a16, .a, a16), (.ldhAC, .a, 0xFF#8 ++ s.c), (.ldhAA8 a8, R8.a, 0xFF#8 ++ a8)] →
    ∃ t, exec i s = .next t ∧ t.r8 dst = s.peek addr ∧ Frame s t [dst] [] [] ∧ SameControl s t ∧ t.pc = s.pc ∧
      t.bus = s.bus ++ [.read addr (s.peek addr)]

/-- The byte stores, LD (HL),r, LD (HL),d8, LD (BC),A, LD (DE),A, LD (a16),A, LDH (C),A, LDH (a8),A, complete: the byte at the
address the rule gives takes the source, written once; no register, no flag and no other byte changes (R244, R245, R248,
R249, R251, R253, R255). -/
def Obligations.MemoryStoresWriteOneByte : Prop :=
  ∀ (s : State) (r : Reg8) (d8 : Byte) (a16 : Word) (a8 : Byte) (i : Instr) (addr : Word) (v : Byte),
    s.mem.wf = true →
    (i, addr, v) ∈ [(.ldHlR r, s.h ++ s.l, s.r8 (regOf r)), (.ldHlD8 d8, s.h ++ s.l, d8), (.ldBcA, s.b ++ s.c, s.a),
      (.ldDeA, s.d ++ s.e, s.a), (.ldA16A a16, a16, s.a), (.ldhCA, 0xFF#8 ++ s.c, s.a),
      (Instr.ldhA8A a8, 0xFF#8 ++ a8, s.a)] →
    ∃ t, exec i s = .next t ∧ t.peek addr = v ∧ Frame s t [] [] [addr] ∧ SameControl s t ∧ t.pc = s.pc ∧
      t.bus = s.bus ++ [.write addr v]

/-- LD (HL+),A and LD (HL-),A write A at HL, LD A,(HL+) and LD A,(HL-) read it, and then HL is one more or one less modulo
65536; each completes, and no flag and nothing else changes (R256 to R259: general knowledge and the spec's own choice, D13). -/
def Obligations.PostStepLoadsMoveHl : Prop :=
  ∀ (s : State) (up : Bool), s.mem.wf = true →
    let hl := s.r16 .hl
    let moved := if up then hl + 1#16 else hl - 1#16
    (∃ t, exec (if up then .ldHliA else .ldHldA) s = .next t ∧ t.peek hl = s.a ∧ t.r16 .hl = moved ∧
      Frame s t [.h, .l] [] [hl] ∧ SameControl s t ∧ t.pc = s.pc ∧ t.bus = s.bus ++ [.write hl s.a]) ∧
    (∃ t, exec (if up then .ldAHli else .ldAHld) s = .next t ∧ t.a = s.peek hl ∧ t.r16 .hl = moved ∧
      Frame s t [.a, .h, .l] [] [] ∧ SameControl s t ∧ t.pc = s.pc ∧ t.bus = s.bus ++ [.read hl (s.peek hl)])

/-- LD (a16),SP completes: the low byte of SP goes to a16, the high byte to a16 + 1 modulo 65536; SP, the flags and every
other byte and register are unchanged (R261; the two-byte width, D14, the wrap, D17, and that the low byte is written first, R56,
D19, are the spec's own choices; entry 10). -/
def Obligations.StoreSpWritesItsTwoBytes : Prop :=
  ∀ (s : State) (a16 : Word), s.mem.wf = true →
    ∃ t, exec (.ldA16Sp a16) s = .next t ∧ t.peek a16 = s.sp.extractLsb' 0 8 ∧
      t.peek (a16 + 1#16) = s.sp.extractLsb' 8 8 ∧ Frame s t [] [] [a16, a16 + 1#16] ∧ SameControl s t ∧
      t.pc = s.pc ∧
      t.bus = s.bus ++ [.write a16 (s.sp.extractLsb' 0 8), .write (a16 + 1#16) (s.sp.extractLsb' 8 8)]

/-- PUSH completes for each of BC, DE, HL, AF: SP is lower by 2 modulo 65536, the register is at the new SP, low byte first;
no register but SP, no flag and no other byte changes (R268, R270; the wrap, D17, and that the low byte is written first,
R56, D19, are the spec's own choices; entry 10). -/
def Obligations.PushStoresTheRegister : Prop :=
  ∀ (s : State) (qq : StackPair), s.mem.wf = true →
    ∃ t, exec (.push qq) s = .next t ∧ t.sp = s.sp - 2#16 ∧
      t.peek (s.sp - 2#16) = (s.r16 (stackPairReg qq)).extractLsb' 0 8 ∧
      t.peek (s.sp - 1#16) = (s.r16 (stackPairReg qq)).extractLsb' 8 8 ∧
      Frame s t [] [] [s.sp - 2#16, s.sp - 1#16] ∧ t.pc = s.pc ∧ t.ime = s.ime ∧ t.halted = s.halted ∧
      t.bus = s.bus ++
        [.write (s.sp - 2#16) ((s.r16 (stackPairReg qq)).extractLsb' 0 8),
          .write (s.sp - 1#16) ((s.r16 (stackPairReg qq)).extractLsb' 8 8)]

/-- POP completes for each of BC, DE, HL, AF: the register takes the word at SP (AF without the low nibble of the low byte, so
that the four flags are bits 7 to 4 of it), SP is higher by 2 modulo 65536; but for POP AF no flag changes; nothing else
changes (R269, R271, R26; the wrap is the spec's own choice, D17). -/
def Obligations.PopLoadsTheRegister : Prop :=
  ∀ (s : State) (qq : StackPair),
    let w := s.peek (s.sp + 1#16) ++ s.peek s.sp
    ∃ t, exec (.pop qq) s = .next t ∧ t.sp = s.sp + 2#16 ∧
      t.r16 (stackPairReg qq) = (if qq = .af then w &&& 0xFFF0#16 else w) ∧
      (qq = .af → FlagsAre t (w.getLsbD 7) (w.getLsbD 6) (w.getLsbD 5) (w.getLsbD 4)) ∧
      Frame s t (pairHalves (stackPairReg qq)) (if qq = .af then [.z, .n, .h, .c] else []) [] ∧
      t.pc = s.pc ∧ t.ime = s.ime ∧ t.halted = s.halted ∧
      t.bus = s.bus ++ [.read s.sp (s.peek s.sp), .read (s.sp + 1#16) (s.peek (s.sp + 1#16))]

/-- PUSH followed by POP of the same register leaves the register and SP as they were, from every SP (R268 to R271, "Push/pop
must be exact inverses"; plain memory: entry 2; the wrap is the spec's own choice, D17). -/
def Obligations.PopAfterPushRestores : Prop :=
  ∀ (s t : State) (qq : StackPair), s.mem.wf = true → exec (.push qq) s = .next t →
    ∃ u, exec (.pop qq) t = .next u ∧ u.sp = s.sp ∧ ∀ r : R16, u.r16 r = s.r16 r

/-! ## System instructions (45_system.md) -/

/-- NOP, DI, EI, HALT complete: NOP changes nothing, DI and EI write IME at once, HALT sets `halted`, and none changes
anything else (R282 to R285; NOP is D26, the absence of a delay D8, HALT D5: the spec's own choices). -/
def Obligations.SystemInstructionsChangeOneBit : Prop :=
  ∀ s : State, exec .nop s = .next s ∧ exec .di s = .next { s with ime := false } ∧
    exec .ei s = .next { s with ime := true } ∧ exec .halt s = .next { s with halted := true }

/-- STOP and the eleven undefined bytes are decode failures: they end in `UnknownOpcode` of their byte (R286, R288, R301; that
STOP is one is the spec's own choice, D6). -/
def Obligations.UndefinedOpcodesRaiseUnknownOpcode : Prop :=
  ∀ s : State, exec .stop s = .fault (.unknownOpcode 0x10#8) ∧
    ∀ op : Byte, (Instr.undefined op).wellFormed = true → exec (.undefined op) s = .fault (.unknownOpcode op)
end

