-- ==== Sys2Proof/Laws/State.lean ====
section
/-! SUPPORT. What each shared update of State leaves in each field and view: one lemma each, so that no later proof
unfolds a record update. -/

namespace Sys2Proof.Machine

namespace State

variable (s : State)


/-! ## log -/

@[simp] theorem log_config (x : BusAccess) : (s.log x).config = s.config := rfl
@[simp] theorem log_a (x : BusAccess) : (s.log x).a = s.a := rfl
@[simp] theorem log_f (x : BusAccess) : (s.log x).f = s.f := rfl
@[simp] theorem log_b (x : BusAccess) : (s.log x).b = s.b := rfl
@[simp] theorem log_c (x : BusAccess) : (s.log x).c = s.c := rfl
@[simp] theorem log_d (x : BusAccess) : (s.log x).d = s.d := rfl
@[simp] theorem log_e (x : BusAccess) : (s.log x).e = s.e := rfl
@[simp] theorem log_h (x : BusAccess) : (s.log x).h = s.h := rfl
@[simp] theorem log_l (x : BusAccess) : (s.log x).l = s.l := rfl
@[simp] theorem log_sp (x : BusAccess) : (s.log x).sp = s.sp := rfl
@[simp] theorem log_pc (x : BusAccess) : (s.log x).pc = s.pc := rfl
@[simp] theorem log_ime (x : BusAccess) : (s.log x).ime = s.ime := rfl
@[simp] theorem log_halted (x : BusAccess) : (s.log x).halted = s.halted := rfl
@[simp] theorem log_mem (x : BusAccess) : (s.log x).mem = s.mem := rfl
@[simp] theorem log_imem (x : BusAccess) : (s.log x).imem = s.imem := rfl
@[simp] theorem log_bus (x : BusAccess) : (s.log x).bus = s.bus ++ [x] := rfl
@[simp] theorem log_r8 (x0 : BusAccess) (r : R8) : (s.log x0).r8 r = s.r8 r := by cases r <;> rfl
@[simp] theorem log_flag (x0 : BusAccess) (x : Flag) : (s.log x0).flag x = s.flag x := rfl
@[simp] theorem log_peek (x0 : BusAccess) (addr : Word) : (s.log x0).peek addr = s.peek addr := rfl
@[simp] theorem log_ipeek (x0 : BusAccess) (addr : Word) : (s.log x0).ipeek addr = s.ipeek addr := rfl
@[simp] theorem log_r16 (x0 : BusAccess) (r : R16) : (s.log x0).r16 r = s.r16 r := by cases r <;> rfl
@[simp] theorem log_cond (x0 : BusAccess) (cc : Cond) : (s.log x0).cond cc = s.cond cc := by cases cc <;> rfl

/-! ## beginStep -/

@[simp] theorem beginStep_config : s.beginStep.config = s.config := rfl
@[simp] theorem beginStep_a : s.beginStep.a = s.a := rfl
@[simp] theorem beginStep_f : s.beginStep.f = s.f := rfl
@[simp] theorem beginStep_b : s.beginStep.b = s.b := rfl
@[simp] theorem beginStep_c : s.beginStep.c = s.c := rfl
@[simp] theorem beginStep_d : s.beginStep.d = s.d := rfl
@[simp] theorem beginStep_e : s.beginStep.e = s.e := rfl
@[simp] theorem beginStep_h : s.beginStep.h = s.h := rfl
@[simp] theorem beginStep_l : s.beginStep.l = s.l := rfl
@[simp] theorem beginStep_sp : s.beginStep.sp = s.sp := rfl
@[simp] theorem beginStep_pc : s.beginStep.pc = s.pc := rfl
@[simp] theorem beginStep_ime : s.beginStep.ime = s.ime := rfl
@[simp] theorem beginStep_halted : s.beginStep.halted = s.halted := rfl
@[simp] theorem beginStep_mem : s.beginStep.mem = s.mem := rfl
@[simp] theorem beginStep_imem : s.beginStep.imem = s.imem := rfl
@[simp] theorem beginStep_bus : s.beginStep.bus = [] := rfl
@[simp] theorem beginStep_r8 (r : R8) : (s.beginStep).r8 r = s.r8 r := by cases r <;> rfl
@[simp] theorem beginStep_flag (x : Flag) : (s.beginStep).flag x = s.flag x := rfl
@[simp] theorem beginStep_peek (addr : Word) : (s.beginStep).peek addr = s.peek addr := rfl
@[simp] theorem beginStep_ipeek (addr : Word) : (s.beginStep).ipeek addr = s.ipeek addr := rfl
@[simp] theorem beginStep_r16 (r : R16) : (s.beginStep).r16 r = s.r16 r := by cases r <;> rfl
@[simp] theorem beginStep_cond (cc : Cond) : (s.beginStep).cond cc = s.cond cc := by cases cc <;> rfl

/-! ## setR8 -/

@[simp] theorem setR8_config (x : R8) (v : Byte) : (s.setR8 x v).config = s.config := by cases x <;> rfl
@[simp] theorem setR8_sp (x : R8) (v : Byte) : (s.setR8 x v).sp = s.sp := by cases x <;> rfl
@[simp] theorem setR8_pc (x : R8) (v : Byte) : (s.setR8 x v).pc = s.pc := by cases x <;> rfl
@[simp] theorem setR8_ime (x : R8) (v : Byte) : (s.setR8 x v).ime = s.ime := by cases x <;> rfl
@[simp] theorem setR8_halted (x : R8) (v : Byte) : (s.setR8 x v).halted = s.halted := by cases x <;> rfl
@[simp] theorem setR8_mem (x : R8) (v : Byte) : (s.setR8 x v).mem = s.mem := by cases x <;> rfl
@[simp] theorem setR8_imem (x : R8) (v : Byte) : (s.setR8 x v).imem = s.imem := by cases x <;> rfl
@[simp] theorem setR8_bus (x : R8) (v : Byte) : (s.setR8 x v).bus = s.bus := by cases x <;> rfl
@[simp] theorem setR8_peek (x : R8) (v : Byte) (addr : Word) : (s.setR8 x v).peek addr = s.peek addr := by cases x <;> rfl
@[simp] theorem setR8_ipeek (x : R8) (v : Byte) (addr : Word) : (s.setR8 x v).ipeek addr = s.ipeek addr := by
  cases x <;> rfl
/-- R22: the register written holds the value written, when it is not F. -/
@[simp] theorem setR8_r8_same (x : R8) (v : Byte) (h : x ≠ .f) : (s.setR8 x v).r8 x = v := by
  cases x <;> first | rfl | exact absurd rfl h

/-- R22, R26: F holds the high nibble of the value written. -/
@[simp] theorem setR8_r8_f (v : Byte) : (s.setR8 .f v).r8 .f = v &&& fMask := by
  show (v &&& fMask) &&& fMask = v &&& fMask
  rw [BitVec.and_assoc, BitVec.and_self]

/-- R22: every other register keeps its value. -/
@[simp] theorem setR8_r8_ne (x y : R8) (v : Byte) (h : y ≠ x) : (s.setR8 x v).r8 y = s.r8 y := by
  cases x <;> cases y <;> first | rfl | exact absurd rfl h

/-- R28: the flags stand in F alone. -/
@[simp] theorem setR8_flag (x : R8) (v : Byte) (y : Flag) (h : x ≠ .f) : (s.setR8 x v).flag y = s.flag y := by
  simp only [State.flag, s.setR8_r8_ne x .f v (Ne.symm h)]

theorem setR8_f_ne (x : R8) (v : Byte) (h : x ≠ .f) : (s.setR8 x v).f = s.f := by
  cases x <;> first | rfl | exact absurd rfl h

/-! ## setR16 -/

@[simp] theorem setR16_config (x : R16) (v : Word) : (s.setR16 x v).config = s.config := by cases x <;> rfl
@[simp] theorem setR16_ime (x : R16) (v : Word) : (s.setR16 x v).ime = s.ime := by cases x <;> rfl
@[simp] theorem setR16_halted (x : R16) (v : Word) : (s.setR16 x v).halted = s.halted := by cases x <;> rfl
@[simp] theorem setR16_mem (x : R16) (v : Word) : (s.setR16 x v).mem = s.mem := by cases x <;> rfl
@[simp] theorem setR16_imem (x : R16) (v : Word) : (s.setR16 x v).imem = s.imem := by cases x <;> rfl
@[simp] theorem setR16_bus (x : R16) (v : Word) : (s.setR16 x v).bus = s.bus := by cases x <;> rfl
@[simp] theorem setR16_peek (x : R16) (v : Word) (addr : Word) : (s.setR16 x v).peek addr = s.peek addr := by
  cases x <;> rfl
@[simp] theorem setR16_ipeek (x : R16) (v : Word) (addr : Word) : (s.setR16 x v).ipeek addr = s.ipeek addr := by
  cases x <;> rfl
@[simp] theorem setR16_sp (v : Word) : (s.setR16 .sp v).sp = v := rfl
@[simp] theorem setR16_pc (v : Word) : (s.setR16 .pc v).pc = v := rfl
@[simp] theorem setR16_sp_ne (x : R16) (v : Word) (h : x ≠ .sp) : (s.setR16 x v).sp = s.sp := by
  cases x <;> first | rfl | exact absurd rfl h
@[simp] theorem setR16_pc_ne (x : R16) (v : Word) (h : x ≠ .pc) : (s.setR16 x v).pc = s.pc := by
  cases x <;> first | rfl | exact absurd rfl h
@[simp] theorem setR16_r8_sp (v : Word) (y : R8) : (s.setR16 .sp v).r8 y = s.r8 y := by cases y <;> rfl
@[simp] theorem setR16_r8_pc (v : Word) (y : R8) : (s.setR16 .pc v).r8 y = s.r8 y := by cases y <;> rfl
@[simp] theorem setR16_flag (x : R16) (v : Word) (y : Flag) (h : x ≠ .af) : (s.setR16 x v).flag y = s.flag y := by
  cases x <;> first | rfl | exact absurd rfl h

/-! ## setFlags -/

@[simp] theorem setFlags_config (z n h c : Option Bool) : (s.setFlags z n h c).config = s.config := rfl
@[simp] theorem setFlags_a (z n h c : Option Bool) : (s.setFlags z n h c).a = s.a := rfl
@[simp] theorem setFlags_b (z n h c : Option Bool) : (s.setFlags z n h c).b = s.b := rfl
@[simp] theorem setFlags_c (z n h c : Option Bool) : (s.setFlags z n h c).c = s.c := rfl
@[simp] theorem setFlags_d (z n h c : Option Bool) : (s.setFlags z n h c).d = s.d := rfl
@[simp] theorem setFlags_e (z n h c : Option Bool) : (s.setFlags z n h c).e = s.e := rfl
@[simp] theorem setFlags_h (z n h c : Option Bool) : (s.setFlags z n h c).h = s.h := rfl
@[simp] theorem setFlags_l (z n h c : Option Bool) : (s.setFlags z n h c).l = s.l := rfl
@[simp] theorem setFlags_sp (z n h c : Option Bool) : (s.setFlags z n h c).sp = s.sp := rfl
@[simp] theorem setFlags_pc (z n h c : Option Bool) : (s.setFlags z n h c).pc = s.pc := rfl
@[simp] theorem setFlags_ime (z n h c : Option Bool) : (s.setFlags z n h c).ime = s.ime := rfl
@[simp] theorem setFlags_halted (z n h c : Option Bool) : (s.setFlags z n h c).halted = s.halted := rfl
@[simp] theorem setFlags_mem (z n h c : Option Bool) : (s.setFlags z n h c).mem = s.mem := rfl
@[simp] theorem setFlags_imem (z n h c : Option Bool) : (s.setFlags z n h c).imem = s.imem := rfl
@[simp] theorem setFlags_bus (z n h c : Option Bool) : (s.setFlags z n h c).bus = s.bus := rfl
@[simp] theorem setFlags_peek (z n h c : Option Bool) (addr : Word) :
    (s.setFlags z n h c).peek addr = s.peek addr := rfl
@[simp] theorem setFlags_ipeek (z n h c : Option Bool) (addr : Word) :
    (s.setFlags z n h c).ipeek addr = s.ipeek addr := rfl
/-- R28: A and every register other than F are unchanged. -/
@[simp] theorem setFlags_r8 (z n h c : Option Bool) (y : R8) (hy : y ≠ .f) :
    (s.setFlags z n h c).r8 y = s.r8 y := s.setR8_r8_ne .f y _ hy


/-! ## memWrite8 -/

@[simp] theorem memWrite8_config (addr : Word) (v : Byte) : (s.memWrite8 addr v).config = s.config := rfl
@[simp] theorem memWrite8_a (addr : Word) (v : Byte) : (s.memWrite8 addr v).a = s.a := rfl
@[simp] theorem memWrite8_f (addr : Word) (v : Byte) : (s.memWrite8 addr v).f = s.f := rfl
@[simp] theorem memWrite8_b (addr : Word) (v : Byte) : (s.memWrite8 addr v).b = s.b := rfl
@[simp] theorem memWrite8_c (addr : Word) (v : Byte) : (s.memWrite8 addr v).c = s.c := rfl
@[simp] theorem memWrite8_d (addr : Word) (v : Byte) : (s.memWrite8 addr v).d = s.d := rfl
@[simp] theorem memWrite8_e (addr : Word) (v : Byte) : (s.memWrite8 addr v).e = s.e := rfl
@[simp] theorem memWrite8_h (addr : Word) (v : Byte) : (s.memWrite8 addr v).h = s.h := rfl
@[simp] theorem memWrite8_l (addr : Word) (v : Byte) : (s.memWrite8 addr v).l = s.l := rfl
@[simp] theorem memWrite8_sp (addr : Word) (v : Byte) : (s.memWrite8 addr v).sp = s.sp := rfl
@[simp] theorem memWrite8_pc (addr : Word) (v : Byte) : (s.memWrite8 addr v).pc = s.pc := rfl
@[simp] theorem memWrite8_ime (addr : Word) (v : Byte) : (s.memWrite8 addr v).ime = s.ime := rfl
@[simp] theorem memWrite8_halted (addr : Word) (v : Byte) : (s.memWrite8 addr v).halted = s.halted := rfl
@[simp] theorem memWrite8_imem (addr : Word) (v : Byte) : (s.memWrite8 addr v).imem = s.imem := rfl
@[simp] theorem memWrite8_mem (addr : Word) (v : Byte) :
    (s.memWrite8 addr v).mem = s.mem.write addr.toNat v := rfl
@[simp] theorem memWrite8_bus (addr : Word) (v : Byte) :
    (s.memWrite8 addr v).bus = s.bus ++ [.write addr v] := rfl
@[simp] theorem memWrite8_r8 (addr : Word) (v : Byte) (y : R8) : (s.memWrite8 addr v).r8 y = s.r8 y := by
  cases y <;> rfl
@[simp] theorem memWrite8_r16 (addr : Word) (v : Byte) (y : R16) : (s.memWrite8 addr v).r16 y = s.r16 y := by
  cases y <;> rfl
@[simp] theorem memWrite8_flag (addr : Word) (v : Byte) (y : Flag) : (s.memWrite8 addr v).flag y = s.flag y := rfl


/-! ## memWrite16 -/

@[simp] theorem memWrite16_config (addr v : Word) : (s.memWrite16 addr v).config = s.config := rfl
@[simp] theorem memWrite16_a (addr v : Word) : (s.memWrite16 addr v).a = s.a := rfl
@[simp] theorem memWrite16_f (addr v : Word) : (s.memWrite16 addr v).f = s.f := rfl
@[simp] theorem memWrite16_b (addr v : Word) : (s.memWrite16 addr v).b = s.b := rfl
@[simp] theorem memWrite16_c (addr v : Word) : (s.memWrite16 addr v).c = s.c := rfl
@[simp] theorem memWrite16_d (addr v : Word) : (s.memWrite16 addr v).d = s.d := rfl
@[simp] theorem memWrite16_e (addr v : Word) : (s.memWrite16 addr v).e = s.e := rfl
@[simp] theorem memWrite16_h (addr v : Word) : (s.memWrite16 addr v).h = s.h := rfl
@[simp] theorem memWrite16_l (addr v : Word) : (s.memWrite16 addr v).l = s.l := rfl
@[simp] theorem memWrite16_sp (addr v : Word) : (s.memWrite16 addr v).sp = s.sp := rfl
@[simp] theorem memWrite16_pc (addr v : Word) : (s.memWrite16 addr v).pc = s.pc := rfl
@[simp] theorem memWrite16_ime (addr v : Word) : (s.memWrite16 addr v).ime = s.ime := rfl
@[simp] theorem memWrite16_halted (addr v : Word) : (s.memWrite16 addr v).halted = s.halted := rfl
@[simp] theorem memWrite16_imem (addr v : Word) : (s.memWrite16 addr v).imem = s.imem := rfl
/-- R56: the low byte first, then the high byte. -/
@[simp] theorem memWrite16_bus (addr v : Word) : (s.memWrite16 addr v).bus =
    s.bus ++ [.write addr (loByte v), .write (addr + 1#16) (hiByte v)] := by
  simp [memWrite16]
@[simp] theorem memWrite16_mem (addr v : Word) : (s.memWrite16 addr v).mem =
    (s.mem.write addr.toNat (loByte v)).write (addr + 1#16).toNat (hiByte v) := rfl
@[simp] theorem memWrite16_r8 (addr v : Word) (y : R8) : (s.memWrite16 addr v).r8 y = s.r8 y := by
  cases y <;> rfl
@[simp] theorem memWrite16_flag (addr v : Word) (y : Flag) : (s.memWrite16 addr v).flag y = s.flag y := rfl


/-! ## push16 -/

@[simp] theorem push16_config (v : Word) : (s.push16 v).config = s.config := rfl
@[simp] theorem push16_a (v : Word) : (s.push16 v).a = s.a := rfl
@[simp] theorem push16_f (v : Word) : (s.push16 v).f = s.f := rfl
@[simp] theorem push16_b (v : Word) : (s.push16 v).b = s.b := rfl
@[simp] theorem push16_c (v : Word) : (s.push16 v).c = s.c := rfl
@[simp] theorem push16_d (v : Word) : (s.push16 v).d = s.d := rfl
@[simp] theorem push16_e (v : Word) : (s.push16 v).e = s.e := rfl
@[simp] theorem push16_h (v : Word) : (s.push16 v).h = s.h := rfl
@[simp] theorem push16_l (v : Word) : (s.push16 v).l = s.l := rfl
@[simp] theorem push16_pc (v : Word) : (s.push16 v).pc = s.pc := rfl
@[simp] theorem push16_ime (v : Word) : (s.push16 v).ime = s.ime := rfl
@[simp] theorem push16_halted (v : Word) : (s.push16 v).halted = s.halted := rfl
@[simp] theorem push16_imem (v : Word) : (s.push16 v).imem = s.imem := rfl
/-- R270: SP is lower by 2. -/
@[simp] theorem push16_sp (v : Word) : (s.push16 v).sp = s.sp - 2#16 := rfl
@[simp] theorem push16_bus (v : Word) : (s.push16 v).bus =
    s.bus ++ [.write (s.sp - 2#16) (loByte v), .write (s.sp - 2#16 + 1#16) (hiByte v)] := by
  simp [push16]
@[simp] theorem push16_mem (v : Word) : (s.push16 v).mem =
    (s.mem.write (s.sp - 2#16).toNat (loByte v)).write (s.sp - 2#16 + 1#16).toNat (hiByte v) := rfl
@[simp] theorem push16_r8 (v : Word) (y : R8) : (s.push16 v).r8 y = s.r8 y := by cases y <;> rfl
@[simp] theorem push16_flag (v : Word) (y : Flag) : (s.push16 v).flag y = s.flag y := rfl


end State

end Sys2Proof.Machine
end

