-- ==== Sys2Proof/Laws/Flags.lean ====
section
/-! SUPPORT. The flags: what packing them gives, and what a flag write leaves (spec 10_state.md R27, R28). -/

namespace Sys2Proof.Machine

@[simp] theorem packFlags_z (z n h c : Bool) : (packFlags z n h c).getLsbD 7 = z := by
  cases z <;> cases n <;> cases h <;> cases c <;> rfl
@[simp] theorem packFlags_n (z n h c : Bool) : (packFlags z n h c).getLsbD 6 = n := by
  cases z <;> cases n <;> cases h <;> cases c <;> rfl
@[simp] theorem packFlags_h (z n h c : Bool) : (packFlags z n h c).getLsbD 5 = h := by
  cases z <;> cases n <;> cases h <;> cases c <;> rfl
@[simp] theorem packFlags_c (z n h c : Bool) : (packFlags z n h c).getLsbD 4 = c := by
  cases z <;> cases n <;> cases h <;> cases c <;> rfl

/-- The flags have no bit in the low nibble (R26). -/
@[simp] theorem packFlags_mask (z n h c : Bool) : packFlags z n h c &&& fMask = packFlags z n h c := by
  cases z <;> cases n <;> cases h <;> cases c <;> rfl

/-- Two bytes F with the same four flags and no low nibble are equal (R26, R27). -/
theorem packFlags_of_bits (v : Byte) : packFlags (v.getLsbD 7) (v.getLsbD 6) (v.getLsbD 5) (v.getLsbD 4) =
    v &&& fMask := by
  revert v; decide

/-- Bits 3..0 of anything masked for F are 0 (R26). -/
@[simp] theorem mask_low (v : Byte) : v &&& fMask &&& 0x0F#8 = 0#8 := by
  rw [BitVec.and_assoc]
  exact BitVec.and_zero

theorem mask_of_low (v : Byte) (h : v &&& 0x0F#8 = 0#8) : v &&& fMask = v := by
  revert v; decide

namespace State

variable (s : State)

/-- R26: F reads with its low nibble 0, in every state. -/
theorem r8_f_low : s.r8 .f &&& 0x0F#8 = 0#8 := mask_low s.f

/-- R28: F after a flag write. -/
@[simp] theorem setFlags_r8_f (z n h c : Option Bool) : (s.setFlags z n h c).r8 .f =
    packFlags (z.getD (s.flag .z)) (n.getD (s.flag .n)) (h.getD (s.flag .h)) (c.getD (s.flag .c)) := by
  simp [setFlags]

/-- R28: a flag write writes the flags given and keeps those written `-`. -/
@[simp] theorem setFlags_flag_z (z n h c : Option Bool) : (s.setFlags z n h c).flag .z = z.getD (s.flag .z) := by
  rw [flag, setFlags_r8_f]; exact packFlags_z _ _ _ _
@[simp] theorem setFlags_flag_n (z n h c : Option Bool) : (s.setFlags z n h c).flag .n = n.getD (s.flag .n) := by
  rw [flag, setFlags_r8_f]; exact packFlags_n _ _ _ _
@[simp] theorem setFlags_flag_h (z n h c : Option Bool) : (s.setFlags z n h c).flag .h = h.getD (s.flag .h) := by
  rw [flag, setFlags_r8_f]; exact packFlags_h _ _ _ _
@[simp] theorem setFlags_flag_c (z n h c : Option Bool) : (s.setFlags z n h c).flag .c = c.getD (s.flag .c) := by
  rw [flag, setFlags_r8_f]; exact packFlags_c _ _ _ _

/-- R26: F is stored with its low nibble 0 after a flag write. -/
theorem setFlags_f_low (z n h c : Option Bool) : (s.setFlags z n h c).f &&& 0x0F#8 = 0#8 := mask_low _

/-- R26: a register write keeps F's low nibble 0. -/
theorem setR8_f_low (x : R8) (v : Byte) (h : s.f &&& 0x0F#8 = 0#8) : (s.setR8 x v).f &&& 0x0F#8 = 0#8 := by
  cases x <;> first | exact h | exact mask_low _

/-- R26: a 16-bit register write keeps F's low nibble 0. -/
theorem setR16_f_low (x : R16) (v : Word) (h : s.f &&& 0x0F#8 = 0#8) : (s.setR16 x v).f &&& 0x0F#8 = 0#8 := by
  cases x <;> first | exact h | exact mask_low _

/-- R25: a pair is its two halves. -/
theorem r16_af : s.r16 .af = s.r8 .a ++ s.r8 .f := rfl
theorem r16_bc : s.r16 .bc = s.b ++ s.c := rfl
theorem r16_de : s.r16 .de = s.d ++ s.e := rfl
theorem r16_hl : s.r16 .hl = s.h ++ s.l := rfl

end State

/-- R25: the halves of a concatenation are its parts. -/
@[simp] theorem hiByte_cat (hi lo : Byte) : hiByte (cat hi lo) = hi := by
  simp only [hiByte, cat]
  ext i hi'
  simp only [BitVec.getElem_extractLsb', BitVec.getLsbD_append]
  rw [if_neg (by omega)]
  simp [show 8 + i - 8 = i by omega, BitVec.getLsbD_eq_getElem hi']

@[simp] theorem loByte_cat (hi lo : Byte) : loByte (cat hi lo) = lo := by
  simp only [loByte, cat]
  ext i hi'
  simp only [BitVec.getElem_extractLsb', BitVec.getLsbD_append, Nat.zero_add]
  rw [if_pos hi', BitVec.getLsbD_eq_getElem hi']

/-- R25: a word is its two bytes. -/
@[simp] theorem cat_bytes (v : Word) : cat (hiByte v) (loByte v) = v := by
  simp only [hiByte, loByte, cat]
  ext i hi
  simp only [BitVec.getElem_append, BitVec.getElem_extractLsb', Nat.zero_add]
  split
  · simp [BitVec.getLsbD_eq_getElem hi]
  · simp [show 8 + (i - 8) = i by omega, BitVec.getLsbD_eq_getElem hi]

/-! ## Pairs through register and flag writes -/

/-- R26: AF takes a word without bits 3..0. -/
theorem cat_hiByte_mask (v : Word) : cat (hiByte v) (loByte v &&& fMask) = v &&& 0xFFF0#16 := by
  rw [← cat_bytes (v &&& 0xFFF0#16)]
  congr 1
  · show v.extractLsb' 8 8 = (v &&& 0xFFF0#16).extractLsb' 8 8
    rw [BitVec.extractLsb'_and]
    exact (BitVec.and_allOnes (x := v.extractLsb' 8 8)).symm
  · show v.extractLsb' 0 8 &&& 0xF0#8 = (v &&& 0xFFF0#16).extractLsb' 0 8
    rw [BitVec.extractLsb'_and]
    rfl

namespace State

variable (s : State)

/-- R24: the register written holds the value written, when it is not AF. -/
@[simp] theorem setR16_r16_same (x : R16) (v : Word) (h : x ≠ .af) : (s.setR16 x v).r16 x = v := by
  cases x
  · exact absurd rfl h
  all_goals first | exact cat_bytes v | rfl

/-- R24, R26: AF holds the value written without bits 3..0. -/
@[simp] theorem setR16_r16_af (v : Word) : (s.setR16 .af v).r16 .af = v &&& 0xFFF0#16 := by
  show cat (hiByte v) (loByte v &&& fMask &&& fMask) = v &&& 0xFFF0#16
  rw [BitVec.and_assoc, BitVec.and_self, cat_hiByte_mask]

/-- R24: every other 16-bit register keeps its value. -/
@[simp] theorem setR16_r16_ne (x y : R16) (v : Word) (h : y ≠ x) : (s.setR16 x v).r16 y = s.r16 y := by
  cases x <;> cases y <;> first | rfl | exact absurd rfl h

/-- R28: no pair but AF changes with the flags. -/
@[simp] theorem setFlags_r16 (z n h c : Option Bool) (x : R16) (hx : x ≠ .af) :
    (s.setFlags z n h c).r16 x = s.r16 x := by
  cases x <;> first | rfl | exact absurd rfl hx

/-- R24: a pair write leaves every 8-bit register that is no half of the pair. -/
theorem setR16_r8_ne (x : R16) (y : R8) (v : Word) (hf : y ≠ .f) (h : y ∉ pairHalves x) :
    (s.setR16 x v).r8 y = s.r8 y := by
  cases x <;> cases y <;> first | rfl | exact absurd rfl hf | exact absurd (by decide) h

end State

end Sys2Proof.Machine
end

