-- ==== Sys2Proof/Laws/Memory.lean ====
section
/-! SUPPORT. The laws of a memory: read after write, and the canonical form. -/

namespace Sys2Proof.Machine

namespace Memory

theorem read_of_lt (m : Memory) : ∀ (low addr : Nat), wfFrom low m = true → addr < low → read m addr = unlisted := by
  induction m with
  | nil => intro low addr _ _; rfl
  | cons cell rest ih =>
    intro low addr hwf hlt
    simp only [wfFrom, Bool.and_eq_true, decide_eq_true_eq] at hwf
    have hne : cell.1 ≠ addr := by omega
    simp only [read, hne, if_false]
    exact ih (cell.1 + 1) addr hwf.2 (by omega)

/-- A write leaves every other address alone, in every list. -/
theorem read_write_ne (m : Memory) (addr other : Nat) (v : Byte) (h : other ≠ addr) :
    read (write m addr v) other = read m other := by
  induction m with
  | nil =>
    simp only [write]
    split
    · rfl
    · simp [read, Ne.symm h]
  | cons cell rest ih =>
    simp only [write]
    split
    · simp only [read, ih]
    · split
      · rename_i _ heq
        have hne : cell.1 ≠ other := by omega
        split
        · simp [read, hne]
        · simp [read, hne, Ne.symm h]
      · split
        · rfl
        · simp [read, Ne.symm h]

/-- A read after a write to the same address gives the byte written, in a memory of canonical form. -/
theorem read_write_same (m : Memory) (addr : Nat) (v : Byte) : ∀ (low : Nat), wfFrom low m = true →
    read (write m addr v) addr = v := by
  induction m with
  | nil =>
    intro low _
    simp only [write]
    split
    · rename_i hv; exact hv.symm
    · simp [read]
  | cons cell rest ih =>
    intro low hwf
    simp only [wfFrom, Bool.and_eq_true, decide_eq_true_eq] at hwf
    simp only [write]
    split
    · rename_i hlt
      have hne : cell.1 ≠ addr := by omega
      simp only [read, hne, if_false]
      exact ih (cell.1 + 1) hwf.2
    · split
      · rename_i _ heq
        split
        · rename_i hv
          rw [read_of_lt rest (cell.1 + 1) addr hwf.2 (by omega)]
          exact hv.symm
        · simp [read]
      · split
        · rename_i hlt hne hv
          simp only [read, hne, if_false]
          rw [read_of_lt rest (cell.1 + 1) addr hwf.2 (by omega)]
          exact hv.symm
        · simp [read]

theorem wfFrom_mono (m : Memory) (low low' : Nat) (h : low' ≤ low) (hwf : wfFrom low m = true) :
    wfFrom low' m = true := by
  cases m with
  | nil => rfl
  | cons cell rest =>
    simp only [wfFrom, Bool.and_eq_true, decide_eq_true_eq] at hwf ⊢
    exact ⟨⟨⟨by omega, hwf.1.1.2⟩, hwf.1.2⟩, hwf.2⟩

theorem wfFrom_write (m : Memory) (addr : Nat) (v : Byte) (hsize : addr < size) : ∀ (low : Nat), low ≤ addr →
    wfFrom low m = true → wfFrom low (write m addr v) = true := by
  induction m with
  | nil =>
    intro low hlow _
    simp only [write]
    split
    · rfl
    · rename_i hv
      simp [wfFrom, hlow, hsize, hv]
  | cons cell rest ih =>
    intro low hlow hwf
    simp only [wfFrom, Bool.and_eq_true, decide_eq_true_eq] at hwf
    simp only [write]
    split
    · rename_i hlt
      simp only [wfFrom, Bool.and_eq_true, decide_eq_true_eq]
      exact ⟨hwf.1, ih (cell.1 + 1) (by omega) hwf.2⟩
    · split
      · rename_i _ heq
        split
        · exact wfFrom_mono rest (cell.1 + 1) low (by omega) hwf.2
        · rename_i hv
          simp only [wfFrom, Bool.and_eq_true, decide_eq_true_eq]
          exact ⟨⟨⟨hlow, hsize⟩, hv⟩, by rw [← heq]; exact hwf.2⟩
      · split
        · simp only [wfFrom, Bool.and_eq_true, decide_eq_true_eq]
          exact hwf
        · rename_i hlt hne hv
          simp only [wfFrom, Bool.and_eq_true, decide_eq_true_eq]
          exact ⟨⟨⟨hlow, hsize⟩, hv⟩, ⟨⟨⟨by omega, hwf.1.1.2⟩, hwf.1.2⟩, hwf.2⟩⟩

/-- A write inside the address space keeps the canonical form. -/
theorem wf_write (m : Memory) (addr : Nat) (v : Byte) (hsize : addr < size) (h : m.wf = true) :
    (write m addr v).wf = true := wfFrom_write m addr v hsize 0 (Nat.zero_le _) h

theorem wf_nil : wf [] = true := rfl

end Memory

end Sys2Proof.Machine
end

