-- ==== Sys2Proof/Laws/Ops.lean ====
section
/-! SUPPORT. One lemma for each shared operation, saying everything it does; the provers cite these instead of
unfolding the operation. -/

namespace Sys2Proof.Machine

namespace State

variable (s : State)

/-! ## More accesses on the bus -/

@[simp] theorem logs_config (x : List BusAccess) : (s.logs x).config = s.config := rfl
@[simp] theorem logs_a (x : List BusAccess) : (s.logs x).a = s.a := rfl
@[simp] theorem logs_f (x : List BusAccess) : (s.logs x).f = s.f := rfl
@[simp] theorem logs_b (x : List BusAccess) : (s.logs x).b = s.b := rfl
@[simp] theorem logs_c (x : List BusAccess) : (s.logs x).c = s.c := rfl
@[simp] theorem logs_d (x : List BusAccess) : (s.logs x).d = s.d := rfl
@[simp] theorem logs_e (x : List BusAccess) : (s.logs x).e = s.e := rfl
@[simp] theorem logs_h (x : List BusAccess) : (s.logs x).h = s.h := rfl
@[simp] theorem logs_l (x : List BusAccess) : (s.logs x).l = s.l := rfl
@[simp] theorem logs_sp (x : List BusAccess) : (s.logs x).sp = s.sp := rfl
@[simp] theorem logs_pc (x : List BusAccess) : (s.logs x).pc = s.pc := rfl
@[simp] theorem logs_ime (x : List BusAccess) : (s.logs x).ime = s.ime := rfl
@[simp] theorem logs_halted (x : List BusAccess) : (s.logs x).halted = s.halted := rfl
@[simp] theorem logs_mem (x : List BusAccess) : (s.logs x).mem = s.mem := rfl
@[simp] theorem logs_imem (x : List BusAccess) : (s.logs x).imem = s.imem := rfl
@[simp] theorem logs_bus (x : List BusAccess) : (s.logs x).bus = s.bus ++ x := rfl
@[simp] theorem logs_r8 (x : List BusAccess) (r : R8) : (s.logs x).r8 r = s.r8 r := by cases r <;> rfl
@[simp] theorem logs_r16 (x : List BusAccess) (r : R16) : (s.logs x).r16 r = s.r16 r := by cases r <;> rfl
@[simp] theorem logs_flag (x : List BusAccess) (y : Flag) : (s.logs x).flag y = s.flag y := rfl
@[simp] theorem logs_cond (x : List BusAccess) (cc : Cond) : (s.logs x).cond cc = s.cond cc := by cases cc <;> rfl
@[simp] theorem logs_peek (x : List BusAccess) (addr : Word) : (s.logs x).peek addr = s.peek addr := rfl
@[simp] theorem logs_ipeek (x : List BusAccess) (addr : Word) : (s.logs x).ipeek addr = s.ipeek addr := rfl

theorem log_eq_logs (x : BusAccess) : s.log x = s.logs [x] := rfl

@[simp] theorem logs_logs (x y : List BusAccess) : (s.logs x).logs y = s.logs (x ++ y) := by
  simp [logs]

@[simp] theorem logs_nil : s.logs [] = s := by
  simp [logs]

/-! ## Data reads and writes (R53 to R56) -/

/-- R53: the byte memory holds, and one data read. -/
@[simp] theorem memRead8_eq (addr : Word) : s.memRead8 addr = (s.peek addr, s.logs [.read addr (s.peek addr)]) := rfl

/-- R55: low byte first. -/
@[simp] theorem memRead16_eq (addr : Word) : s.memRead16 addr =
    (cat (s.peek (addr + 1#16)) (s.peek addr),
      s.logs [.read addr (s.peek addr), .read (addr + 1#16) (s.peek (addr + 1#16))]) := by
  simp [memRead16]

/-- R54, R65: a write to plain memory is what a later read of the address gives. -/
theorem memWrite8_peek_same (addr : Word) (v : Byte) (h : s.mem.wf = true) : (s.memWrite8 addr v).peek addr = v :=
  Memory.read_write_same s.mem addr.toNat v 0 h

/-- R54: every other byte keeps its value. -/
theorem memWrite8_peek_ne (addr other : Word) (v : Byte) (h : other ≠ addr) :
    (s.memWrite8 addr v).peek other = s.peek other :=
  Memory.read_write_ne s.mem addr.toNat other.toNat v (fun e => h (BitVec.eq_of_toNat_eq e))

/-- A write keeps the canonical form. -/
theorem memWrite8_wf (addr : Word) (v : Byte) (h : s.mem.wf = true) : (s.memWrite8 addr v).mem.wf = true :=
  Memory.wf_write s.mem addr.toNat v addr.isLt h

/-- An address and the one after it differ (R71). -/
theorem addr_ne_succ (addr : Word) : addr ≠ addr + 1#16 := by
  intro h
  have := congrArg BitVec.toNat h
  simp only [BitVec.toNat_add, BitVec.toNat_ofNat] at this
  omega

/-- R56, R57: the byte at the address is the low byte. -/
theorem memWrite16_peek_low (addr v : Word) (h : s.mem.wf = true) :
    (s.memWrite16 addr v).peek addr = loByte v := by
  show ((s.memWrite8 addr (loByte v)).memWrite8 (addr + 1#16) (hiByte v)).peek addr = loByte v
  rw [memWrite8_peek_ne _ _ _ _ (addr_ne_succ addr), memWrite8_peek_same _ _ _ h]

/-- R56, R57: the byte at the next address is the high byte. -/
theorem memWrite16_peek_high (addr v : Word) (h : s.mem.wf = true) :
    (s.memWrite16 addr v).peek (addr + 1#16) = hiByte v :=
  memWrite8_peek_same _ _ _ (memWrite8_wf s addr _ h)

/-- R56: every other byte keeps its value. -/
theorem memWrite16_peek_ne (addr v other : Word) (h0 : other ≠ addr) (h1 : other ≠ addr + 1#16) :
    (s.memWrite16 addr v).peek other = s.peek other := by
  show ((s.memWrite8 addr (loByte v)).memWrite8 (addr + 1#16) (hiByte v)).peek other = s.peek other
  rw [memWrite8_peek_ne _ _ _ _ h1, memWrite8_peek_ne _ _ _ _ h0]

theorem memWrite16_wf (addr v : Word) (h : s.mem.wf = true) : (s.memWrite16 addr v).mem.wf = true :=
  memWrite8_wf _ _ _ (memWrite8_wf s addr _ h)

/-! ## The stack (R270, R271) -/

/-- R270: SP lower by 2, and the word written there. -/
theorem push16_eq (v : Word) : s.push16 v = { s with sp := s.sp - 2#16 }.memWrite16 (s.sp - 2#16) v := rfl

/-- R271: the word at SP, low byte first, and SP higher by 2. -/
@[simp] theorem pop16_eq : s.pop16 =
    (cat (s.peek (s.sp + 1#16)) (s.peek s.sp),
      { s with sp := s.sp + 2#16 }.logs
        [.read s.sp (s.peek s.sp), .read (s.sp + 1#16) (s.peek (s.sp + 1#16))]) := by
  simp [pop16]; rfl

/-- R228: the word at SP goes to PC. -/
@[simp] theorem returnFromStack_eq : s.returnFromStack =
    { s with sp := s.sp + 2#16, pc := cat (s.peek (s.sp + 1#16)) (s.peek s.sp) }.logs
      [.read s.sp (s.peek s.sp), .read (s.sp + 1#16) (s.peek (s.sp + 1#16))] := by
  simp [returnFromStack]; rfl

/-! ## The instruction stream (R86, R87) -/

/-- R86. -/
theorem fetch8_eq : s.fetch8 = (s.ipeek s.pc, { s with pc := s.pc + 1#16 }.logs [.ifetch s.pc (s.ipeek s.pc)]) := rfl

/-! ## Operands (R122, R188) -/

/-- R188: the operand's value, and one data read if it is `(HL)`. -/
theorem readLoc8_eq (x : Loc8) : s.readLoc8 x = (s.locValue x, s.logs (s.locReads x)) := by
  cases x <;> simp [readLoc8, locValue, locReads]

/-- R122: the operand's value, and one data read if it is `(HL)`. -/
theorem readSrc8_eq (x : Src8) : s.readSrc8 x = (s.srcValue x, s.logs (s.srcReads x)) := by
  cases x <;> simp [readSrc8, srcValue, srcReads, readLoc8_eq]

/-- R124 to R144. -/
theorem aluToA_eq (op : Byte → Byte → AluResult) (x : Src8) : s.aluToA op x =
    ((s.logs (s.srcReads x)).setR8 .a (op s.a (s.srcValue x)).res).setAluFlags (op s.a (s.srcValue x)) := by
  simp [aluToA, readSrc8_eq, r8]

/-- R194 to R209. -/
theorem rotateLoc_eq (op : Byte → Byte × Bool) (x : Loc8) : s.rotateLoc op x =
    ((s.logs (s.locReads x)).writeLoc8 x (op (s.locValue x)).1).setFlags
      (some (decide ((op (s.locValue x)).1 = 0#8))) (some false) (some false) (some (op (s.locValue x)).2) := by
  simp [rotateLoc, readLoc8_eq]

/-- R243 to R259. -/
theorem loadR8_eq (x : R8) (addr : Word) :
    s.loadR8 x addr = (s.logs [.read addr (s.peek addr)]).setR8 x (s.peek addr) := rfl

/-- R226, R233. -/
theorem callTo_eq (target : Word) : s.callTo target = { s.push16 s.pc with pc := target } := rfl

/-! ## Writing an 8-bit operand (R188) -/

@[simp] theorem writeLoc8_config (x : Loc8) (v : Byte) : (s.writeLoc8 x v).config = s.config := by
  cases x <;> simp [writeLoc8]
@[simp] theorem writeLoc8_sp (x : Loc8) (v : Byte) : (s.writeLoc8 x v).sp = s.sp := by cases x <;> simp [writeLoc8]
@[simp] theorem writeLoc8_pc (x : Loc8) (v : Byte) : (s.writeLoc8 x v).pc = s.pc := by cases x <;> simp [writeLoc8]
@[simp] theorem writeLoc8_ime (x : Loc8) (v : Byte) : (s.writeLoc8 x v).ime = s.ime := by cases x <;> simp [writeLoc8]
@[simp] theorem writeLoc8_halted (x : Loc8) (v : Byte) : (s.writeLoc8 x v).halted = s.halted := by
  cases x <;> simp [writeLoc8]
@[simp] theorem writeLoc8_imem (x : Loc8) (v : Byte) : (s.writeLoc8 x v).imem = s.imem := by
  cases x <;> simp [writeLoc8]
@[simp] theorem writeLoc8_bus (x : Loc8) (v : Byte) : (s.writeLoc8 x v).bus = s.bus ++ s.locWrites v x := by
  cases x <;> simp [writeLoc8, locWrites]

theorem regOf_ne_f (r : Reg8) : regOf r ≠ .f := by cases r <;> decide

@[simp] theorem writeLoc8_flag (x : Loc8) (v : Byte) (y : Flag) : (s.writeLoc8 x v).flag y = s.flag y := by
  cases x <;> simp [writeLoc8, regOf_ne_f]

/-- R188: every register the operand is not keeps its value. -/
theorem writeLoc8_r8_ne (x : Loc8) (v : Byte) (y : R8) (h : y ∉ locRegs x) : (s.writeLoc8 x v).r8 y = s.r8 y := by
  cases x
  · exact s.setR8_r8_ne _ _ _ (by simpa [locRegs] using h)
  · simp [writeLoc8]

/-- R188: every byte the operand is not keeps its value. -/
theorem writeLoc8_peek_ne (x : Loc8) (v : Byte) (addr : Word) (h : addr ∉ s.locStores x) :
    (s.writeLoc8 x v).peek addr = s.peek addr := by
  cases x
  · simp [writeLoc8]
  · exact s.memWrite8_peek_ne _ _ _ (by simpa [locStores] using h)

/-- R188: the operand holds the value written. -/
theorem writeLoc8_locValue (x : Loc8) (v : Byte) (h : s.mem.wf = true) : (s.writeLoc8 x v).locValue x = v := by
  cases x
  · exact s.setR8_r8_same _ _ (regOf_ne_f _)
  · simp only [locValue, writeLoc8, memWrite8_r16]
    exact s.memWrite8_peek_same _ _ h

theorem writeLoc8_wf (x : Loc8) (v : Byte) (h : s.mem.wf = true) : (s.writeLoc8 x v).mem.wf = true := by
  cases x
  · simpa [writeLoc8] using h
  · exact s.memWrite8_wf _ _ h

/-! ## Operand values in states that share registers and memory -/

@[simp] theorem logs_locValue (acc : List BusAccess) (x : Loc8) : (s.logs acc).locValue x = s.locValue x := by
  cases x <;> simp [locValue]
@[simp] theorem logs_locWrites (acc : List BusAccess) (v : Byte) (x : Loc8) :
    (s.logs acc).locWrites v x = s.locWrites v x := by
  cases x <;> simp [locWrites]
@[simp] theorem logs_locStores (acc : List BusAccess) (x : Loc8) : (s.logs acc).locStores x = s.locStores x := by
  cases x <;> simp [locStores]
@[simp] theorem setFlags_locValue (z n h c : Option Bool) (x : Loc8) : (s.setFlags z n h c).locValue x = s.locValue x := by
  cases x <;> simp [locValue, regOf_ne_f]

/-! ## Stores of the stack (R270) -/

theorem sp_sub_two (sp : Word) : sp - 2#16 + 1#16 = sp - 1#16 := by bv_omega

theorem push16_wf (v : Word) (h : s.mem.wf = true) : (s.push16 v).mem.wf = true :=
  memWrite16_wf _ _ _ h

/-- R270: the low byte stands at the new SP. -/
theorem push16_peek_low (v : Word) (h : s.mem.wf = true) : (s.push16 v).peek (s.sp - 2#16) = loByte v :=
  memWrite16_peek_low _ _ _ h

/-- R270: the high byte stands at the new SP + 1. -/
theorem push16_peek_high (v : Word) (h : s.mem.wf = true) : (s.push16 v).peek (s.sp - 1#16) = hiByte v := by
  rw [← sp_sub_two]
  exact memWrite16_peek_high _ _ _ h

/-- R270: every other byte keeps its value. -/
theorem push16_peek_ne (v other : Word) (h0 : other ≠ s.sp - 2#16) (h1 : other ≠ s.sp - 1#16) :
    (s.push16 v).peek other = s.peek other :=
  memWrite16_peek_ne _ _ _ _ h0 (by rwa [sp_sub_two])

end State

end Sys2Proof.Machine
end

