-- ==== Sys2Proof/Laws/Effects.lean ====
section
/-! SUPPORT. What the shared operations do, in the terms claims use: frames, and the effects of one shape. -/

namespace Sys2Proof.Machine

namespace Frame

/-- A state shares everything with itself. -/
theorem rfl' (s : State) : Frame s s [] [] [] :=
  ⟨fun _ _ _ => rfl, fun _ _ => rfl, fun _ _ => rfl, rfl, rfl⟩

/-- More accesses on the bus change nothing else. -/
theorem logs (s : State) (acc : List BusAccess) : Frame s (s.logs acc) [] [] [] :=
  ⟨fun _ _ _ => by simp, fun _ _ => by simp, fun _ _ => by simp, rfl, rfl⟩

/-- A frame may name more. -/
theorem mono {s t : State} {regs regs' : List R8} {flags flags' : List Flag} {stores stores' : List Word}
    (h : Frame s t regs flags stores) (hr : ∀ r ∈ regs, r ∈ regs') (hf : ∀ x ∈ flags, x ∈ flags')
    (hs : ∀ a ∈ stores, a ∈ stores') : Frame s t regs' flags' stores' :=
  ⟨fun r h0 h1 => h.regs r h0 (fun m => h1 (hr r m)), fun x h1 => h.flags x (fun m => h1 (hf x m)),
    fun a h1 => h.data a (fun m => h1 (hs a m)), h.code, h.config⟩

/-- Frames compose. -/
theorem trans {s t u : State} {regs regs' : List R8} {flags flags' : List Flag} {stores stores' : List Word}
    (h : Frame s t regs flags stores) (h' : Frame t u regs' flags' stores') :
    Frame s u (regs ++ regs') (flags ++ flags') (stores ++ stores') :=
  ⟨fun r h0 h1 => (h'.regs r h0 (by simp_all)).trans (h.regs r h0 (by simp_all)),
    fun x h1 => (h'.flags x (by simp_all)).trans (h.flags x (by simp_all)),
    fun a h1 => (h'.data a (by simp_all)).trans (h.data a (by simp_all)),
    h'.code.trans h.code, h'.config.trans h.config⟩

/-- R22: a write of a register other than F. -/
theorem setR8 (s : State) (x : R8) (v : Byte) (hx : x ≠ .f) : Frame s (s.setR8 x v) [x] [] [] :=
  ⟨fun r _ h => s.setR8_r8_ne x r v (by simpa using h), fun y _ => s.setR8_flag x v y hx, fun _ _ => by simp,
    by simp, by simp⟩

/-- R24: a write of a 16-bit register other than AF. -/
theorem setR16 (s : State) (x : R16) (v : Word) (hx : x ≠ .af) : Frame s (s.setR16 x v) (pairHalves x) [] [] :=
  ⟨fun r h0 h => s.setR16_r8_ne x r v h0 h, fun y _ => s.setR16_flag x v y hx, fun _ _ => by simp, by simp, by simp⟩

/-- R28: a flag write; a position written `-` is a flag that keeps its value. -/
theorem setFlags (s : State) (z n h c : Option Bool) (flags : List Flag) (hz : z = none ∨ .z ∈ flags)
    (hn : n = none ∨ .n ∈ flags) (hh : h = none ∨ .h ∈ flags) (hc : c = none ∨ .c ∈ flags) :
    Frame s (s.setFlags z n h c) [] flags [] := by
  refine ⟨fun r h0 _ => s.setFlags_r8 z n h c r h0, fun x hx => ?_, fun _ _ => by simp, by simp, by simp⟩
  cases x <;> simp_all

/-- R54: a byte write. -/
theorem memWrite8 (s : State) (addr : Word) (v : Byte) : Frame s (s.memWrite8 addr v) [] [] [addr] :=
  ⟨fun _ _ _ => by simp, fun _ _ => by simp, fun a h => s.memWrite8_peek_ne addr a v (by simpa using h), rfl, rfl⟩

/-- R56: a word write. -/
theorem memWrite16 (s : State) (addr v : Word) : Frame s (s.memWrite16 addr v) [] [] [addr, addr + 1#16] :=
  ⟨fun _ _ _ => by simp, fun _ _ => by simp,
    fun a h => s.memWrite16_peek_ne addr v a (fun e => h (by simp [e])) (fun e => h (by simp [e])), rfl, rfl⟩

/-- R270: a push. -/
theorem push16 (s : State) (v : Word) : Frame s (s.push16 v) [] [] [s.sp - 2#16, s.sp - 1#16] :=
  ⟨fun _ _ _ => by simp, fun _ _ => by simp,
    fun a h => s.push16_peek_ne v a (fun e => h (by simp [e])) (fun e => h (by simp [e])), rfl, rfl⟩

/-- R188: a write of an 8-bit operand. -/
theorem writeLoc8 (s : State) (x : Loc8) (v : Byte) : Frame s (s.writeLoc8 x v) (locRegs x) [] (s.locStores x) :=
  ⟨fun r _ h => s.writeLoc8_r8_ne x v r h, fun _ _ => by simp, fun a h => s.writeLoc8_peek_ne x v a h, by simp,
    by simp⟩

end Frame

/-- R124 to R144: an operation on A and the operand has the effect its result says. -/
theorem State.aluToA_effect (s : State) (op : Byte → Byte → AluResult) (x : Src8) :
    AluEffect s (s.aluToA op x) x (op s.a (s.srcValue x)).res (op s.a (s.srcValue x)).z (op s.a (s.srcValue x)).n
      (op s.a (s.srcValue x)).h (op s.a (s.srcValue x)).c := by
  rw [s.aluToA_eq]
  refine ⟨rfl, ⟨by simp [setAluFlags], by simp [setAluFlags], by simp [setAluFlags], by simp [setAluFlags]⟩, ?_,
    ⟨rfl, rfl, rfl⟩, rfl, rfl⟩
  exact (((Frame.logs s _).trans (Frame.setR8 _ .a _ (by decide))).trans
    (Frame.setFlags _ _ _ _ _ [.z, .n, .h, .c] (by simp) (by simp) (by simp) (by simp))).mono
      (by simp) (by simp) (by simp)

/-- R188: reading an 8-bit operand and writing it back is an effect on that operand alone. -/
theorem State.writeLoc8_effect (s : State) (x : Loc8) (res : Byte) (h : s.mem.wf = true) :
    LocEffect s ((s.logs (s.locReads x)).writeLoc8 x res) x res [] := by
  refine ⟨State.writeLoc8_locValue _ x res h, ?_, ⟨by simp, by simp, by simp⟩, by simp, by simp⟩
  exact ((Frame.logs s _).trans (Frame.writeLoc8 (s.logs (s.locReads x)) x res)).mono (by simp) (by simp) (by simp)

/-- A flag write after an effect on an operand. -/
theorem LocEffect.setFlags {s t : State} {x : Loc8} {res : Byte} (he : LocEffect s t x res []) (z n h c : Option Bool)
    (flags : List Flag) (hz : z = none ∨ .z ∈ flags) (hn : n = none ∨ .n ∈ flags) (hh : h = none ∨ .h ∈ flags)
    (hc : c = none ∨ .c ∈ flags) : LocEffect s (t.setFlags z n h c) x res flags := by
  refine ⟨(t.setFlags_locValue z n h c x).trans he.result, ?_, he.control, he.pc, he.bus⟩
  exact (he.frame.trans (Frame.setFlags t z n h c flags hz hn hh hc)).mono (by simp) (by simp) (by simp)

/-- R194 to R209: a rotate or shift of an 8-bit operand. -/
theorem State.rotateLoc_effect (s : State) (op : Byte → Byte × Bool) (x : Loc8) (h : s.mem.wf = true) :
    LocEffect s (s.rotateLoc op x) x (op (s.locValue x)).1 [.z, .n, .h, .c] ∧
    FlagsAre (s.rotateLoc op x) (decide ((op (s.locValue x)).1 = 0#8)) false false (op (s.locValue x)).2 := by
  rw [s.rotateLoc_eq]
  exact ⟨(s.writeLoc8_effect x _ h).setFlags _ _ _ _ _ (by simp) (by simp) (by simp) (by simp), by simp [FlagsAre]⟩

/-- R190 to R193: a rotate of A. -/
theorem State.rotateA_effect (s : State) (op : Byte → Byte × Bool) :
    (s.rotateA op).a = (op s.a).1 ∧ FlagsAre (s.rotateA op) false false false (op s.a).2 ∧
    RegEffect s (s.rotateA op) [.a] [.z, .n, .h, .c] ∧ (s.rotateA op).sp = s.sp ∧ (s.rotateA op).pc = s.pc := by
  refine ⟨rfl, by simp [FlagsAre, rotateA, r8], ⟨?_, rfl, rfl, rfl⟩, rfl, rfl⟩
  exact ((Frame.setR8 s .a _ (by decide)).trans
    (Frame.setFlags _ _ _ _ _ [.z, .n, .h, .c] (by simp) (by simp) (by simp) (by simp))).mono
      (by simp) (by simp) (by simp)

end Sys2Proof.Machine
end

