-- ==== Sys2Proof/Laws/Alu.lean ====
section
/-! SUPPORT. The results and flags of the ALU (spec 40_alu8.md R120, R121; 41_alu16.md R170, R175), and what the
meanings with a read operand come to. -/

namespace Sys2Proof.Machine

/-- The low nibble of a byte as a number. -/
theorem low_nibble (v : Byte) : (v &&& 0x0F#8).toNat = v.toNat % 16 := by
  rw [BitVec.toNat_and]
  exact Nat.and_two_pow_sub_one_eq_mod v.toNat 4

/-- R120. -/
theorem add8_eq (a b : Byte) (c : Bool) : add8 a b c =
    { res := BitVec.ofNat 8 (a.toNat + b.toNat + c.toNat)
      z := decide ((a.toNat + b.toNat + c.toNat) % 256 = 0)
      n := false
      h := decide (a.toNat % 16 + b.toNat % 16 + c.toNat > 0xF)
      c := decide (a.toNat + b.toNat + c.toNat > 0xFF) } := by
  simp [add8, BitVec.toNat_eq]

/-- R121: the difference of the numbers modulo 256 is the difference of the bytes. -/
theorem ofInt_sub_sub (a b : Byte) (c : Bool) :
    BitVec.ofInt 8 ((a.toNat : Int) - b.toNat - c.toNat) = a - b - BitVec.ofNat 8 c.toNat := by
  apply BitVec.eq_of_toNat_eq
  have ha := a.isLt
  have hb := b.isLt
  cases c <;> simp only [BitVec.toNat_ofInt, BitVec.toNat_sub, BitVec.toNat_ofNat, Bool.toNat_true, Bool.toNat_false] <;>
    omega

/-- R121. -/
theorem sub8_eq (a b : Byte) (c : Bool) : sub8 a b c =
    { res := a - b - BitVec.ofNat 8 c.toNat
      z := decide (a - b - BitVec.ofNat 8 c.toNat = 0#8)
      n := true
      h := decide (a.toNat % 16 < b.toNat % 16 + c.toNat)
      c := decide (a.toNat < b.toNat + c.toNat) } := by
  simp only [sub8, ofInt_sub_sub]

/-- R121, without a borrow-in. -/
theorem sub8_false (a b : Byte) : sub8 a b false =
    { res := a - b
      z := decide (a = b)
      n := true
      h := decide (a.toNat % 16 < b.toNat % 16)
      c := decide (a.toNat < b.toNat) } := by
  have hz : a - b = 0#8 ↔ a = b := by constructor <;> intro h <;> bv_omega
  rw [sub8_eq]
  simp [hz]

/-! ## Meanings that read an operand first -/

/-- R145 to R147. -/
theorem execCpA_eq (x : Src8) (s : State) :
    execCpA x s = .next ((s.logs (s.srcReads x)).setAluFlags (sub8 s.a (s.srcValue x) false)) := by
  simp [execCpA, s.readSrc8_eq, State.r8]

/-- R148, R149. -/
theorem execInc8_eq (x : Loc8) (s : State) : execInc8 x s =
    .next (((s.logs (s.locReads x)).writeLoc8 x (s.locValue x + 1#8)).setFlags
      (some (decide (s.locValue x + 1#8 = 0#8))) (some false) (some (decide ((s.locValue x).toNat % 16 = 0xF))) none) := by
  simp [execInc8, s.readLoc8_eq]

/-- R150, R151. -/
theorem execDec8_eq (x : Loc8) (s : State) : execDec8 x s =
    .next (((s.logs (s.locReads x)).writeLoc8 x (s.locValue x - 1#8)).setFlags
      (some (decide (s.locValue x - 1#8 = 0#8))) (some true) (some (decide ((s.locValue x).toNat % 16 = 0x0))) none) := by
  simp [execDec8, s.readLoc8_eq]

/-- R210, R211. -/
theorem execBit_eq (b : BitVec 3) (x : Loc8) (s : State) : execBit b x s =
    .next ((s.logs (s.locReads x)).setFlags (some (!(s.locValue x).getLsbD b.toNat)) (some false) (some true) none) := by
  simp [execBit, s.readLoc8_eq]

/-- R212, R213. -/
theorem execRes_eq (b : BitVec 3) (x : Loc8) (s : State) : execRes b x s =
    .next ((s.logs (s.locReads x)).writeLoc8 x (s.locValue x &&& ~~~ (bitMask b))) := by
  simp [execRes, s.readLoc8_eq]

/-- R214, R215. -/
theorem execSetBit_eq (b : BitVec 3) (x : Loc8) (s : State) : execSetBit b x s =
    .next ((s.logs (s.locReads x)).writeLoc8 x (s.locValue x ||| bitMask b)) := by
  simp [execSetBit, s.readLoc8_eq]

/-- R269. -/
theorem execPop_eq (qq : StackPair) (s : State) : execPop qq s =
    .next (({ s with sp := s.sp + 2#16 }.logs
        [.read s.sp (s.peek s.sp), .read (s.sp + 1#16) (s.peek (s.sp + 1#16))]).setR16 (stackPairReg qq)
      (cat (s.peek (s.sp + 1#16)) (s.peek s.sp))) := by
  simp [execPop]

end Sys2Proof.Machine
end

