-- ==== Sys2Proof/Laws/Decode.lean ====
section
/-! SUPPORT. The encoding tables and the decoding tables of spec 30_encoding.md undo each other, field by field. -/

namespace Sys2Proof

open Sys2Proof.Machine

/-- R81: the two immediate bytes of a word give the word. -/
@[simp] theorem imm16_bytes (w : Word) : imm16 (immLo w) (immHi w) = w := cat_bytes w
@[simp] theorem immLo_imm16 (lo hi : Byte) : immLo (imm16 lo hi) = lo := loByte_cat hi lo
@[simp] theorem immHi_imm16 (lo hi : Byte) : immHi (imm16 lo hi) = hi := hiByte_cat hi lo

/-- R90. -/
@[simp] theorem loc8Of_code (x : Loc8) : loc8Of x.code = x := by
  cases x with
  | reg r => cases r <;> rfl
  | indHl => rfl
@[simp] theorem code_loc8Of (z : BitVec 3) : (loc8Of z).code = z := by revert z; decide

/-- R91. -/
@[simp] theorem regPairOf_code (x : RegPair) : regPairOf x.code = x := by cases x <;> rfl
@[simp] theorem code_regPairOf (p : BitVec 2) : (regPairOf p).code = p := by revert p; decide

/-- R92. -/
@[simp] theorem stackPairOf_code (x : StackPair) : stackPairOf x.code = x := by cases x <;> rfl
@[simp] theorem code_stackPairOf (p : BitVec 2) : (stackPairOf p).code = p := by revert p; decide

/-- R93. -/
@[simp] theorem condOf_code (high : BitVec 1) (x : Cond) : condOf (high ++ x.code) = x := by
  cases x <;> revert high <;> decide

/-- R81: the fields of a byte made of x, y and z. -/
@[simp] theorem opX_xyz (x : BitVec 2) (y z : BitVec 3) : opX (xyz x y z) = x := by revert x y z; decide
@[simp] theorem opY_xyz (x : BitVec 2) (y z : BitVec 3) : opY (xyz x y z) = y := by revert x y z; decide
@[simp] theorem opZ_xyz (x : BitVec 2) (y z : BitVec 3) : opZ (xyz x y z) = z := by revert x y z; decide

/-- R81: a byte is its fields. -/
theorem xyz_fields (op : Byte) : xyz (opX op) (opY op) (opZ op) = op := by revert op; decide

end Sys2Proof
end

