-- ==== Sys2Proof/Laws/PerInstr.lean ====
section
/-! SUPPORT. One lemma per constructor of Instr: the length of its encoding is the one that its first byte tells (spec
30_encoding.md R81, R82). -/

namespace Sys2Proof.Laws.EncodeLength

/-- R81, R82: a well-formed instruction is one byte and the bytes that its first byte asks for. -/
def Statement (i : Instr) : Prop :=
  i.wellFormed = true →
    (encode i).length = 1 + bytesAfter ((encode i).headD 0#8)

theorem nop : Statement .nop := fun _ => rfl

theorem di : Statement .di := fun _ => rfl

theorem ei : Statement .ei := fun _ => rfl

theorem halt : Statement .halt := fun _ => rfl

theorem stop : Statement .stop := fun _ => rfl

theorem prefixCb (op2 : Byte) : Statement (.prefixCb op2) := fun h => absurd h Bool.false_ne_true

theorem undefined (op : Byte) : Statement (.undefined op) := fun h => by
  simp only [Instr.wellFormed, undefinedBytes, List.contains_iff_mem, List.mem_cons, List.not_mem_nil, or_false] at h
  rcases h with h | h | h | h | h | h | h | h | h | h | h <;> subst h <;> decide

theorem addA (x : Src8) : Statement (.addA x) := fun _ => by
  rcases x with ((_ | _ | _ | _ | _ | _ | _) | _) | _ <;> rfl

theorem adcA (x : Src8) : Statement (.adcA x) := fun _ => by
  rcases x with ((_ | _ | _ | _ | _ | _ | _) | _) | _ <;> rfl

theorem subA (x : Src8) : Statement (.subA x) := fun _ => by
  rcases x with ((_ | _ | _ | _ | _ | _ | _) | _) | _ <;> rfl

theorem sbcA (x : Src8) : Statement (.sbcA x) := fun _ => by
  rcases x with ((_ | _ | _ | _ | _ | _ | _) | _) | _ <;> rfl

theorem andA (x : Src8) : Statement (.andA x) := fun _ => by
  rcases x with ((_ | _ | _ | _ | _ | _ | _) | _) | _ <;> rfl

theorem xorA (x : Src8) : Statement (.xorA x) := fun _ => by
  rcases x with ((_ | _ | _ | _ | _ | _ | _) | _) | _ <;> rfl

theorem orA (x : Src8) : Statement (.orA x) := fun _ => by
  rcases x with ((_ | _ | _ | _ | _ | _ | _) | _) | _ <;> rfl

theorem cpA (x : Src8) : Statement (.cpA x) := fun _ => by
  rcases x with ((_ | _ | _ | _ | _ | _ | _) | _) | _ <;> rfl

theorem inc8 (x : Loc8) : Statement (.inc8 x) := fun _ => by
  rcases x with (_ | _ | _ | _ | _ | _ | _) | _ <;> rfl

theorem dec8 (x : Loc8) : Statement (.dec8 x) := fun _ => by
  rcases x with (_ | _ | _ | _ | _ | _ | _) | _ <;> rfl

theorem daa : Statement .daa := fun _ => rfl

theorem cpl : Statement .cpl := fun _ => rfl

theorem scf : Statement .scf := fun _ => rfl

theorem ccf : Statement .ccf := fun _ => rfl

theorem addHl (rr : RegPair) : Statement (.addHl rr) := fun _ => by
  cases rr <;> rfl

theorem inc16 (rr : RegPair) : Statement (.inc16 rr) := fun _ => by
  cases rr <;> rfl

theorem dec16 (rr : RegPair) : Statement (.dec16 rr) := fun _ => by
  cases rr <;> rfl

theorem addSp (r8 : Byte) : Statement (.addSp r8) := fun _ => rfl

theorem ldHlSp (r8 : Byte) : Statement (.ldHlSp r8) := fun _ => rfl

theorem rlca : Statement .rlca := fun _ => rfl

theorem rrca : Statement .rrca := fun _ => rfl

theorem rla : Statement .rla := fun _ => rfl

theorem rra : Statement .rra := fun _ => rfl

theorem rlc (x : Loc8) : Statement (.rlc x) := fun _ => rfl

theorem rrc (x : Loc8) : Statement (.rrc x) := fun _ => rfl

theorem rl (x : Loc8) : Statement (.rl x) := fun _ => rfl

theorem rr (x : Loc8) : Statement (.rr x) := fun _ => rfl

theorem sla (x : Loc8) : Statement (.sla x) := fun _ => rfl

theorem sra (x : Loc8) : Statement (.sra x) := fun _ => rfl

theorem swap (x : Loc8) : Statement (.swap x) := fun _ => rfl

theorem srl (x : Loc8) : Statement (.srl x) := fun _ => rfl

theorem bit (b : BitVec 3) (x : Loc8) : Statement (.bit b x) := fun _ => rfl

theorem res (b : BitVec 3) (x : Loc8) : Statement (.res b x) := fun _ => rfl

theorem setBit (b : BitVec 3) (x : Loc8) : Statement (.setBit b x) := fun _ => rfl

theorem jp (a16 : Word) : Statement (.jp a16) := fun _ => rfl

theorem jpCc (cc : Cond) (a16 : Word) : Statement (.jpCc cc a16) := fun _ => by
  cases cc <;> rfl

theorem jpHl : Statement .jpHl := fun _ => rfl

theorem jr (r8 : Byte) : Statement (.jr r8) := fun _ => rfl

theorem jrCc (cc : Cond) (r8 : Byte) : Statement (.jrCc cc r8) := fun _ => by
  cases cc <;> rfl

theorem call (a16 : Word) : Statement (.call a16) := fun _ => rfl

theorem callCc (cc : Cond) (a16 : Word) : Statement (.callCc cc a16) := fun _ => by
  cases cc <;> rfl

theorem ret : Statement .ret := fun _ => rfl

theorem retCc (cc : Cond) : Statement (.retCc cc) := fun _ => by
  cases cc <;> rfl

theorem reti : Statement .reti := fun _ => rfl

theorem rst (y : BitVec 3) : Statement (.rst y) := fun _ => by
  revert y
  decide

theorem ldRR (dst src : Reg8) : Statement (.ldRR dst src) := fun _ => by
  cases dst <;> cases src <;> rfl

theorem ldRD8 (r : Reg8) (d8 : Byte) : Statement (.ldRD8 r d8) := fun _ => by
  cases r <;> rfl

theorem ldRHl (r : Reg8) : Statement (.ldRHl r) := fun _ => by
  cases r <;> rfl

theorem ldHlR (r : Reg8) : Statement (.ldHlR r) := fun _ => by
  cases r <;> rfl

theorem ldHlD8 (d8 : Byte) : Statement (.ldHlD8 d8) := fun _ => rfl

theorem ldABc : Statement .ldABc := fun _ => rfl

theorem ldADe : Statement .ldADe := fun _ => rfl

theorem ldBcA : Statement .ldBcA := fun _ => rfl

theorem ldDeA : Statement .ldDeA := fun _ => rfl

theorem ldAA16 (a16 : Word) : Statement (.ldAA16 a16) := fun _ => rfl

theorem ldA16A (a16 : Word) : Statement (.ldA16A a16) := fun _ => rfl

theorem ldhAC : Statement .ldhAC := fun _ => rfl

theorem ldhCA : Statement .ldhCA := fun _ => rfl

theorem ldhAA8 (a8 : Byte) : Statement (.ldhAA8 a8) := fun _ => rfl

theorem ldhA8A (a8 : Byte) : Statement (.ldhA8A a8) := fun _ => rfl

theorem ldHliA : Statement .ldHliA := fun _ => rfl

theorem ldAHli : Statement .ldAHli := fun _ => rfl

theorem ldHldA : Statement .ldHldA := fun _ => rfl

theorem ldAHld : Statement .ldAHld := fun _ => rfl

theorem ldRrD16 (rr : RegPair) (d16 : Word) : Statement (.ldRrD16 rr d16) := fun _ => by
  cases rr <;> rfl

theorem ldA16Sp (a16 : Word) : Statement (.ldA16Sp a16) := fun _ => rfl

theorem ldSpHl : Statement .ldSpHl := fun _ => rfl

theorem push (qq : StackPair) : Statement (.push qq) := fun _ => by
  cases qq <;> rfl

theorem pop (qq : StackPair) : Statement (.pop qq) := fun _ => by
  cases qq <;> rfl

end Sys2Proof.Laws.EncodeLength
end

