-- ==== Sys2Proof/Laws/Step.lean ====
section
/-! SUPPORT. What fetching an instruction does (spec 45_system.md R281), and what a step comes to. -/

namespace Sys2Proof.Machine

/-- R82: an instruction has at most two bytes after its first. -/
theorem bytesAfter_le (op : Byte) : bytesAfter op ≤ 2 := by
  unfold bytesAfter
  split
  · decide
  · split
    · decide
    · split <;> decide

namespace State

variable (s : State)

/-- R281: the instruction, from the bytes at PC; PC past it; its bytes read, in address order. -/
theorem fetchInstr_eq : s.fetchInstr =
    (decodeBytes (s.ipeek s.pc)
        (if bytesAfter (s.ipeek s.pc) = 0 then 0#8 else s.ipeek (s.pc + 1#16))
        (if bytesAfter (s.ipeek s.pc) = 2 then s.ipeek (s.pc + 1#16 + 1#16) else 0#8),
      { s with pc := s.pc + BitVec.ofNat 16 (1 + bytesAfter (s.ipeek s.pc)) }.logs
        (s.fetches (1 + bytesAfter (s.ipeek s.pc)) s.pc)) := by
  have hle := bytesAfter_le (s.ipeek s.pc)
  have h2 : s.pc + 2#16 = s.pc + 1#16 + 1#16 := by bv_omega
  have h3 : s.pc + 3#16 = s.pc + 1#16 + 1#16 + 1#16 := by bv_omega
  unfold fetchInstr
  rw [fetch8_eq]
  dsimp only
  generalize bytesAfter (s.ipeek s.pc) = n at hle ⊢
  match n, hle with
  | 0, _ => rfl
  | 1, _ =>
    rw [fetch8_eq]
    simp only [logs, fetches, Nat.reduceAdd, h2, List.append_assoc, List.cons_append, List.nil_append]
    rfl
  | 2, _ =>
    simp only [fetch16, fetch8_eq, hiByte_cat, loByte_cat]
    simp only [logs, fetches, Nat.reduceAdd, h3, List.append_assoc, List.cons_append, List.nil_append]
    rfl

end State

/-- R280. -/
theorem step_halted (s : State) (h : s.halted = true) : step s = .next s.beginStep := by
  simp [step, h]

/-- R281. -/
theorem step_running (s : State) (h : s.halted = false) :
    step s = exec s.beginStep.fetchInstr.1 s.beginStep.fetchInstr.2 := by
  simp [step, h]

end Sys2Proof.Machine
end

