-- ==== Sys2Proof/Syntax/Asm.lean ====
section
/-! DEFINITION. The assembler text of an instruction (spec 30_encoding.md R106), with the numbers in place of d8,
d16, a8, a16 and r8. Nothing of the machine depends on it. -/

namespace Sys2Proof

def hexDigit (n : Nat) : String := String.ofList [("0123456789ABCDEF".toList).getD n '0']

/-- R106: `0x` and two hexadecimal digits. -/
def asm8 (b : Byte) : String := "0x" ++ hexDigit (b.toNat / 16) ++ hexDigit (b.toNat % 16)

/-- R106: `0x` and four hexadecimal digits. -/
def asm16 (w : Word) : String :=
  "0x" ++ hexDigit (w.toNat / 4096) ++ hexDigit (w.toNat / 256 % 16) ++ hexDigit (w.toNat / 16 % 16)
    ++ hexDigit (w.toNat % 16)

/-- R106: the signed displacement itself, in decimal. -/
def asmDisp (b : Byte) : String := toString b.toInt

def Reg8.asm : Reg8 → String
  | .b => "B"
  | .c => "C"
  | .d => "D"
  | .e => "E"
  | .h => "H"
  | .l => "L"
  | .a => "A"

def Loc8.asm : Loc8 → String
  | .reg r => r.asm
  | .indHl => "(HL)"

def Src8.asm : Src8 → String
  | .loc x => x.asm
  | .imm d8 => asm8 d8

def RegPair.asm : RegPair → String
  | .bc => "BC"
  | .de => "DE"
  | .hl => "HL"
  | .sp => "SP"

def StackPair.asm : StackPair → String
  | .bc => "BC"
  | .de => "DE"
  | .hl => "HL"
  | .af => "AF"

def Cond.asm : Cond → String
  | .nz => "NZ"
  | .z => "Z"
  | .nc => "NC"
  | .c => "C"

/-- R106: one line of assembler text. -/
def Instr.asm : Instr → String
  | .nop => "NOP"
  | .di => "DI"
  | .ei => "EI"
  | .halt => "HALT"
  | .stop => "STOP"
  | .prefixCb _ => "PREFIX CB"
  | .undefined _ => "UNDEFINED"
  | .addA x => "ADD A," ++ x.asm
  | .adcA x => "ADC A," ++ x.asm
  | .subA x => "SUB A," ++ x.asm
  | .sbcA x => "SBC A," ++ x.asm
  | .andA x => "AND A," ++ x.asm
  | .xorA x => "XOR A," ++ x.asm
  | .orA x => "OR A," ++ x.asm
  | .cpA x => "CP A," ++ x.asm
  | .inc8 x => "INC " ++ x.asm
  | .dec8 x => "DEC " ++ x.asm
  | .daa => "DAA"
  | .cpl => "CPL"
  | .scf => "SCF"
  | .ccf => "CCF"
  | .addHl p => "ADD HL," ++ p.asm
  | .inc16 p => "INC " ++ p.asm
  | .dec16 p => "DEC " ++ p.asm
  | .addSp r8 => "ADD SP," ++ asmDisp r8
  | .ldHlSp r8 => "LD HL,SP" ++ (if r8.msb then "" else "+") ++ asmDisp r8
  | .rlca => "RLCA"
  | .rrca => "RRCA"
  | .rla => "RLA"
  | .rra => "RRA"
  | .rlc x => "RLC " ++ x.asm
  | .rrc x => "RRC " ++ x.asm
  | .rl x => "RL " ++ x.asm
  | .rr x => "RR " ++ x.asm
  | .sla x => "SLA " ++ x.asm
  | .sra x => "SRA " ++ x.asm
  | .swap x => "SWAP " ++ x.asm
  | .srl x => "SRL " ++ x.asm
  | .bit b x => "BIT " ++ hexDigit b.toNat ++ "," ++ x.asm
  | .res b x => "RES " ++ hexDigit b.toNat ++ "," ++ x.asm
  | .setBit b x => "SET " ++ hexDigit b.toNat ++ "," ++ x.asm
  | .jp a16 => "JP " ++ asm16 a16
  | .jpCc cc a16 => "JP " ++ cc.asm ++ "," ++ asm16 a16
  | .jpHl => "JP HL"
  | .jr r8 => "JR " ++ asmDisp r8
  | .jrCc cc r8 => "JR " ++ cc.asm ++ "," ++ asmDisp r8
  | .call a16 => "CALL " ++ asm16 a16
  | .callCc cc a16 => "CALL " ++ cc.asm ++ "," ++ asm16 a16
  | .ret => "RET"
  | .retCc cc => "RET " ++ cc.asm
  | .reti => "RETI"
  | .rst y => "RST " ++ hexDigit (8 * y.toNat / 16) ++ hexDigit (8 * y.toNat % 16) ++ "H"
  | .ldRR dst src => "LD " ++ dst.asm ++ "," ++ src.asm
  | .ldRD8 r d8 => "LD " ++ r.asm ++ "," ++ asm8 d8
  | .ldRHl r => "LD " ++ r.asm ++ ",(HL)"
  | .ldHlR r => "LD (HL)," ++ r.asm
  | .ldHlD8 d8 => "LD (HL)," ++ asm8 d8
  | .ldABc => "LD A,(BC)"
  | .ldADe => "LD A,(DE)"
  | .ldBcA => "LD (BC),A"
  | .ldDeA => "LD (DE),A"
  | .ldAA16 a16 => "LD A,(" ++ asm16 a16 ++ ")"
  | .ldA16A a16 => "LD (" ++ asm16 a16 ++ "),A"
  | .ldhAC => "LDH A,(C)"
  | .ldhCA => "LDH (C),A"
  | .ldhAA8 a8 => "LDH A,(" ++ asm8 a8 ++ ")"
  | .ldhA8A a8 => "LDH (" ++ asm8 a8 ++ "),A"
  | .ldHliA => "LD (HL+),A"
  | .ldAHli => "LD A,(HL+)"
  | .ldHldA => "LD (HL-),A"
  | .ldAHld => "LD A,(HL-)"
  | .ldRrD16 p d16 => "LD " ++ p.asm ++ "," ++ asm16 d16
  | .ldA16Sp a16 => "LD (" ++ asm16 a16 ++ "),SP"
  | .ldSpHl => "LD SP,HL"
  | .push qq => "PUSH " ++ qq.asm
  | .pop qq => "POP " ++ qq.asm

end Sys2Proof
end

