-- ==== Sys2Proof/Tests/Slice0.lean ====
section
/-! SUPPORT. Tests of the model's own work, and a witness for every statement that has hypotheses. Expected values are
taken from the spec: the file or rule is named in each comment. -/

namespace Sys2Proof.Tests

open Sys2Proof Sys2Proof.Machine

/-! ## Helpers -/

/-- The state with bytes put into data memory from an address on. -/
def put (s : State) (addr : Word) : List Byte → State
  | [] => s
  | b :: rest => put { s with mem := s.mem.write addr.toNat b } (addr + 1#16) rest

/-- A core at 0x0100 with a program there, as the conventions of 95_test_vectors.md lay it out. -/
def prog (bytes : List Byte) : State := put { State.reset with pc := 0x0100#16 } 0x0100#16 bytes

/-- A step completes and the state after it passes a check. -/
def after (s : State) (check : State → Bool) : Bool :=
  match step s with
  | .next t => check t
  | .fault _ => false
  | .refused _ => false

/-! ## WellFormed (30_encoding.md R103, 45_system.md R287) -/

theorem test_wf_refuses_undefined_of_a_defined_byte : (Instr.undefined 0x00#8).wellFormed = false := by decide
theorem test_wf_refuses_undefined_of_stop : (Instr.undefined 0x10#8).wellFormed = false := by decide
theorem test_wf_refuses_prefix_alone : (Instr.prefixCb 0x7C#8).wellFormed = false := by decide
theorem test_wf_accepts_undefined_byte : (Instr.undefined 0xD3#8).wellFormed = true := by decide
theorem test_wf_accepts_bit : (Instr.bit 7#3 (.reg .h)).wellFormed = true := by decide

/-! ## Decoding: the opcode map as the grid of 30_encoding.md R110 writes it -/

/-- The texts of the sixteen instructions of one row of the grid, with every immediate 0. -/
def gridRow (high : BitVec 4) : List String :=
  (List.range 16).map fun low => (decodeUnprefixed (high ++ BitVec.ofNat 4 low) 0#8 0#8).asm

theorem test_grid_row_0 : gridRow 0x0#4 = ["NOP", "LD BC,0x0000", "LD (BC),A", "INC BC", "INC B", "DEC B", "LD B,0x00",
    "RLCA", "LD (0x0000),SP", "ADD HL,BC", "LD A,(BC)", "DEC BC", "INC C", "DEC C", "LD C,0x00", "RRCA"] := by decide
theorem test_grid_row_1 : gridRow 0x1#4 = ["STOP", "LD DE,0x0000", "LD (DE),A", "INC DE", "INC D", "DEC D", "LD D,0x00",
    "RLA", "JR 0", "ADD HL,DE", "LD A,(DE)", "DEC DE", "INC E", "DEC E", "LD E,0x00", "RRA"] := by decide
theorem test_grid_row_2 : gridRow 0x2#4 = ["JR NZ,0", "LD HL,0x0000", "LD (HL+),A", "INC HL", "INC H", "DEC H",
    "LD H,0x00", "DAA", "JR Z,0", "ADD HL,HL", "LD A,(HL+)", "DEC HL", "INC L", "DEC L", "LD L,0x00", "CPL"] := by
  decide
theorem test_grid_row_3 : gridRow 0x3#4 = ["JR NC,0", "LD SP,0x0000", "LD (HL-),A", "INC SP", "INC (HL)", "DEC (HL)",
    "LD (HL),0x00", "SCF", "JR C,0", "ADD HL,SP", "LD A,(HL-)", "DEC SP", "INC A", "DEC A", "LD A,0x00", "CCF"] := by
  decide
theorem test_grid_row_4 : gridRow 0x4#4 = ["LD B,B", "LD B,C", "LD B,D", "LD B,E", "LD B,H", "LD B,L", "LD B,(HL)",
    "LD B,A", "LD C,B", "LD C,C", "LD C,D", "LD C,E", "LD C,H", "LD C,L", "LD C,(HL)", "LD C,A"] := by decide
theorem test_grid_row_5 : gridRow 0x5#4 = ["LD D,B", "LD D,C", "LD D,D", "LD D,E", "LD D,H", "LD D,L", "LD D,(HL)",
    "LD D,A", "LD E,B", "LD E,C", "LD E,D", "LD E,E", "LD E,H", "LD E,L", "LD E,(HL)", "LD E,A"] := by decide
theorem test_grid_row_6 : gridRow 0x6#4 = ["LD H,B", "LD H,C", "LD H,D", "LD H,E", "LD H,H", "LD H,L", "LD H,(HL)",
    "LD H,A", "LD L,B", "LD L,C", "LD L,D", "LD L,E", "LD L,H", "LD L,L", "LD L,(HL)", "LD L,A"] := by decide
theorem test_grid_row_7 : gridRow 0x7#4 = ["LD (HL),B", "LD (HL),C", "LD (HL),D", "LD (HL),E", "LD (HL),H", "LD (HL),L",
    "HALT", "LD (HL),A", "LD A,B", "LD A,C", "LD A,D", "LD A,E", "LD A,H", "LD A,L", "LD A,(HL)", "LD A,A"] := by decide
theorem test_grid_row_8 : gridRow 0x8#4 = ["ADD A,B", "ADD A,C", "ADD A,D", "ADD A,E", "ADD A,H", "ADD A,L",
    "ADD A,(HL)", "ADD A,A", "ADC A,B", "ADC A,C", "ADC A,D", "ADC A,E", "ADC A,H", "ADC A,L", "ADC A,(HL)",
    "ADC A,A"] := by decide
theorem test_grid_row_9 : gridRow 0x9#4 = ["SUB A,B", "SUB A,C", "SUB A,D", "SUB A,E", "SUB A,H", "SUB A,L", "SUB A,(HL)", "SUB A,A", "SBC A,B", "SBC A,C", "SBC A,D", "SBC A,E", "SBC A,H", "SBC A,L", "SBC A,(HL)", "SBC A,A"]
    := by decide
theorem test_grid_row_A : gridRow 0xA#4 = ["AND A,B", "AND A,C", "AND A,D", "AND A,E", "AND A,H", "AND A,L", "AND A,(HL)", "AND A,A", "XOR A,B", "XOR A,C", "XOR A,D", "XOR A,E", "XOR A,H", "XOR A,L", "XOR A,(HL)", "XOR A,A"]
    := by decide
theorem test_grid_row_B : gridRow 0xB#4 = ["OR A,B", "OR A,C", "OR A,D", "OR A,E", "OR A,H", "OR A,L", "OR A,(HL)",
    "OR A,A", "CP A,B", "CP A,C", "CP A,D", "CP A,E", "CP A,H", "CP A,L", "CP A,(HL)", "CP A,A"] := by decide
theorem test_grid_row_C : gridRow 0xC#4 = ["RET NZ", "POP BC", "JP NZ,0x0000", "JP 0x0000", "CALL NZ,0x0000", "PUSH BC",
    "ADD A,0x00", "RST 00H", "RET Z", "RET", "JP Z,0x0000", "PREFIX CB", "CALL Z,0x0000", "CALL 0x0000", "ADC A,0x00",
    "RST 08H"] := by decide
theorem test_grid_row_D : (gridRow 0xD#4).take 10 = ["RET NC", "POP DE", "JP NC,0x0000", "UNDEFINED", "CALL NC,0x0000",
    "PUSH DE", "SUB A,0x00", "RST 10H", "RET C", "RETI"] := by decide
theorem test_grid_row_E : (gridRow 0xE#4).take 11 = ["LDH (0x00),A", "POP HL", "LDH (C),A", "UNDEFINED", "UNDEFINED",
    "PUSH HL", "AND A,0x00", "RST 20H", "ADD SP,0", "JP HL", "LD (0x0000),A"] := by decide
theorem test_grid_row_F : gridRow 0xF#4 = ["LDH A,(0x00)", "POP AF", "LDH A,(C)", "DI", "UNDEFINED", "PUSH AF",
    "OR A,0x00", "RST 30H", "LD HL,SP+0", "LD SP,HL", "LD A,(0x0000)", "EI", "UNDEFINED", "UNDEFINED", "CP A,0x00",
    "RST 38H"] := by decide

/-- R102: second byte = x*64 + y*8 + z; the example of R102 and the corner case of R214. -/
theorem test_cb_words : [0x00#8, 0x0E#8, 0x17#8, 0x1B#8, 0x24#8, 0x2D#8, 0x36#8, 0x3F#8, 0x7C#8, 0x86#8, 0xCB#8, 0xFE#8].map
    (fun op2 => (decodeBytes 0xCB#8 op2 0#8).asm) = ["RLC B", "RRC (HL)", "RL A", "RR E", "SLA H", "SRA L", "SWAP (HL)",
    "SRL A", "BIT 7,H", "RES 0,(HL)", "SET 1,E", "SET 7,(HL)"] := by decide

/-- R109: the assignments that the source pins. -/
theorem test_pinned_words : (decode [0x01#8, 0x69#8, 0x69#8]).toOption.map (fun x => x.1.asm) = some "LD BC,0x6969" ∧
    (decode [0x20#8, 0xFE#8]).toOption.map (fun x => x.1.asm) = some "JR NZ,-2" ∧
    (decode [0xCB#8, 0x7C#8]).toOption.map (fun x => x.1.asm) = some "BIT 7,H" := by decide

/-- R81, R87: the low byte of an immediate comes first. -/
theorem test_immediate_order : decode [0xC3#8, 0x50#8, 0x01#8] = .ok (.jp 0x0150#16, []) := by decide
/-- R81: an instruction that is not all there is not decoded. -/
theorem test_truncated : decode [0xC3#8, 0x50#8] = .error (.truncated 0xC3#8) := by decide
theorem test_no_byte : decode [] = .error .noByte := by decide
/-- R83: the entry of 0xCB in the unprefixed table. -/
theorem test_table_word_prefix : decodeTableWord 8 0xCB = some (.prefixCb 0x00#8) := by decide
/-- R108: a `cbprefixed` row is the number 0xCB ++ second byte. -/
theorem test_table_word_cb : decodeTableWord 16 0xCB7C = some (.bit 7#3 (.reg .h)) := by decide
theorem test_fetch_word_runs : after (State.reset.withFetchWord 8 0x3E) (fun t => t.pc == 0x0002#16) = true := by decide

/-! ## One step each, from the rows of 95_test_vectors.md that the names give -/

theorem test_VA1_add : after { prog [0x80#8] with a := 0xFF#8, b := 0x01#8 }
    (fun t => t.a == 0x00#8 && t.f == 0xB0#8 && t.pc == 0x0101#16) = true := by decide
theorem test_VA7_adc : after { prog [0x89#8] with a := 0xFF#8, f := 0x10#8, c := 0xFF#8 }
    (fun t => t.a == 0xFF#8 && t.f == 0x30#8) = true := by decide
theorem test_VA14_sbc : after { prog [0x98#8] with f := 0x10#8, b := 0xFF#8 }
    (fun t => t.a == 0x00#8 && t.f == 0xF0#8) = true := by decide
theorem test_VA29_cp_hl : after (put { prog [0xBE#8] with a := 0x3C#8, h := 0xC0#8 } 0xC000#16 [0x40#8])
    (fun t => t.a == 0x3C#8 && t.f == 0x50#8 && t.bus == [.ifetch 0x0100#16 0xBE#8, .read 0xC000#16 0x40#8]) = true := by
  decide
theorem test_VA34_inc_hl : after (put { prog [0x34#8] with h := 0xC0#8 } 0xC000#16 [0xFF#8])
    (fun t => t.peek 0xC000#16 == 0x00#8 && t.f == 0xA0#8) = true := by decide
theorem test_VA36_dec : after (prog [0x2D#8]) (fun t => t.l == 0xFF#8 && t.h == 0x00#8 && t.f == 0x60#8) = true := by
  decide
theorem test_VA43_daa : after { prog [0x27#8] with a := 0x94#8, f := 0x20#8 }
    (fun t => t.a == 0x9A#8 && t.f == 0x00#8) = true := by decide
theorem test_VA44_daa : after { prog [0x27#8] with f := 0x70#8 } (fun t => t.a == 0x9A#8 && t.f == 0x50#8) = true := by
  decide
theorem test_VB1_add_hl : after { prog [0x09#8] with f := 0xC0#8, b := 0x06#8, c := 0x05#8, h := 0x8A#8, l := 0x23#8 }
    (fun t => t.r16 .hl == 0x9028#16 && t.f == 0xA0#8) = true := by decide
theorem test_VB11_add_sp : after { prog [0xE8#8, 0xFF#8] with sp := 0x0001#16 }
    (fun t => t.sp == 0x0000#16 && t.f == 0x30#8 && t.pc == 0x0102#16) = true := by decide
theorem test_VB14_ld_hl_sp : after { prog [0xF8#8, 0xF0#8] with sp := 0x000F#16 }
    (fun t => t.r16 .hl == 0xFFFF#16 && t.f == 0x00#8) = true := by decide
theorem test_VC2_rlca : after { prog [0x07#8] with f := 0x80#8 } (fun t => t.a == 0x00#8 && t.f == 0x00#8) = true := by
  decide
theorem test_VC16_rr_hl : after (put { prog [0xCB#8, 0x1E#8] with f := 0x10#8, h := 0xC0#8 } 0xC000#16 [0x8A#8])
    (fun t => t.peek 0xC000#16 == 0xC5#8 && t.f == 0x00#8) = true := by decide
theorem test_VC30_bit : after (put { prog [0xCB#8, 0x4E#8] with f := 0x10#8, h := 0xC0#8 } 0xC000#16 [0xFE#8])
    (fun t => t.f == 0x30#8) = true := by decide
theorem test_VC34_set : after (prog [0xCB#8, 0xCB#8]) (fun t => t.r16 .de == 0x0002#16 && t.pc == 0x0102#16) = true := by
  decide
theorem test_VD10_jr : after { put State.reset 0x0010#16 [0x18#8, 0x80#8] with pc := 0x0010#16 }
    (fun t => t.pc == 0xFF92#16) = true := by decide
theorem test_VD18_call : after { put State.reset 0x0200#16 [0xCD#8, 0x34#8, 0x12#8] with pc := 0x0200#16, sp := 0x0001#16 }
    (fun t => t.pc == 0x1234#16 && t.sp == 0xFFFF#16 && t.peek 0xFFFF#16 == 0x03#8 && t.peek 0x0000#16 == 0x02#8) = true := by
  decide
theorem test_VD28_rst : after { put State.reset 0x0150#16 [0xEF#8] with pc := 0x0150#16, sp := 0xFFFE#16 }
    (fun t => t.pc == 0x0028#16 && t.peek 0xFFFC#16 == 0x51#8 && t.peek 0xFFFD#16 == 0x01#8) = true := by decide
theorem test_VD27_reti : after (put { prog [0xD9#8] with sp := 0xFFFC#16 } 0xFFFC#16 [0x03#8, 0x01#8])
    (fun t => t.pc == 0x0103#16 && t.sp == 0xFFFE#16 && t.ime) = true := by decide
theorem test_VE6_ld_h_hl : after (put { prog [0x66#8] with h := 0xC0#8 } 0xC000#16 [0x12#8])
    (fun t => t.r16 .hl == 0x1200#16) = true := by decide
theorem test_VE19_ldh : after { prog [0xE0#8, 0xFF#8] with a := 0x1F#8 }
    (fun t => t.peek 0xFFFF#16 == 0x1F#8) = true := by decide
theorem test_VE24_ld_hld : after { prog [0x32#8] with a := 0x12#8 }
    (fun t => t.r16 .hl == 0xFFFF#16 && t.peek 0x0000#16 == 0x12#8) = true := by decide
theorem test_VE29_ld_a16_sp : after { prog [0x08#8, 0xFF#8, 0xFF#8] with sp := 0x1234#16 }
    (fun t => t.peek 0xFFFF#16 == 0x34#8 && t.peek 0x0000#16 == 0x12#8 && t.pc == 0x0103#16) = true := by decide
theorem test_VE35_pop_af : after (put { prog [0xF1#8] with sp := 0xC000#16 } 0xC000#16 [0xFF#8, 0x12#8])
    (fun t => t.r16 .af == 0x12F0#16 && t.sp == 0xC002#16) = true := by decide
theorem test_VF4_halt : after { prog [0x76#8] with ime := true }
    (fun t => t.halted && t.ime && t.pc == 0x0101#16) = true := by decide
theorem test_VF5_halted : after { prog [0x3C#8] with a := 0x01#8, halted := true }
    (fun t => t.a == 0x01#8 && t.pc == 0x0100#16 && t.bus == []) = true := by decide
theorem test_VF6_stop : step (prog [0x10#8]) = .fault (.unknownOpcode 0x10#8) := rfl
theorem test_VF7_undefined : (environment .step (prog [0xD3#8])).2.faultByte = 0xD3#8 := by decide
theorem test_VF11_wrap : after { put State.reset 0xFFFF#16 [0xCB#8, 0x37#8] with a := 0x12#8, pc := 0xFFFF#16 }
    (fun t => t.a == 0x21#8 && t.pc == 0x0001#16 && t.bus == [.ifetch 0xFFFF#16 0xCB#8, .ifetch 0x0000#16 0x37#8]) = true := by
  decide
theorem test_reset_memory_is_canonical : State.reset.mem.wf = true ∧ State.reset.imem.wf = true := by decide

/-! ## Witnesses: a state and operands that meet all the hypotheses of each statement -/

theorem witness_DecodeOfEncodeIsTheInstruction : (Instr.jrCc .nc 0xFE#8).wellFormed = true := by decide
theorem witness_EncodeOfDecodeIsTheBytes :
    decode [0xCD#8, 0x34#8, 0x12#8, 0x00#8] = .ok (.call 0x1234#16, [0x00#8]) := by decide
theorem witness_ExactlyTwelveFirstBytesFailToDecode : decodeBytes 0x10#8 0#8 0#8 = .stop ∧
    decodeBytes 0xFD#8 0#8 0#8 = .undefined 0xFD#8 ∧ 0x10#8 ∈ failingBytes ∧ 0xFD#8 ∈ failingBytes ∧
    0xCB#8 ∉ failingBytes := by decide
theorem witness_StepRunsTheEncodedInstruction : (prog [0xC6#8, 0xFF#8]).halted = false ∧
    (Instr.addA (.imm 0xFF#8)).wellFormed = true ∧
    (prog [0xC6#8, 0xFF#8]).fetchesBytes (prog [0xC6#8, 0xFF#8]).pc (encode (.addA (.imm 0xFF#8))) :=
  ⟨by decide, by decide, by decide, by decide, trivial⟩
theorem witness_StepOfHaltedCoreDoesNothing : ({ State.reset with halted := true } : State).halted = true := by decide
theorem witness_OnlyResetLeavesHalted : ({ State.reset with halted := true } : State).halted = true ∧
    EnvEvent.reset ∉ [EnvEvent.step, .write 0xC000#16 0x01#8, .step] := by decide
theorem witness_StepFaultsExactlyOnFailingBytes :
    ((prog [0xFD#8]).halted = false ∧ (prog [0xFD#8]).ipeek (prog [0xFD#8]).pc ∈ failingBytes) ∧
    (prog [0xCB#8]).ipeek (prog [0xCB#8]).pc ∉ failingBytes := by decide
theorem witness_FailedStepIsAtomicAndRepeats :
    ((prog [0x10#8]).halted = false ∧ (prog [0x10#8]).ipeek (prog [0x10#8]).pc ∈ failingBytes) ∧
    (∃ t, step (prog [0xE5#8]) = .next t) ∧ ∃ t, step { State.reset with halted := true } = .next t :=
  ⟨by decide, ⟨_, rfl⟩, _, rfl⟩
theorem witness_ResetGivesTheProfileValues : State.reset.config.resetProfile = .zero ∧
    (State.resetFor { resetProfile := .postboot, fetchSpace := .split }).config.resetProfile = .postboot := by decide
theorem witness_EveryStepKeepsTheInvariant :
    ∃ t, (prog [0xF1#8]).Inv ∧ step (prog [0xF1#8]) = .next t := ⟨_, by decide, rfl⟩
theorem witness_NoStepWritesParametersOrSplitCode : ∃ t,
    step { prog [0x77#8] with config := { resetProfile := .zero, fetchSpace := .split } } = .next t := ⟨_, rfl⟩
theorem witness_StoresAreSeenByTheNextFetch : ∃ t, (prog [0x77#8]).mem.wf = true ∧
    (prog [0x77#8]).config.fetchSpace = .unified ∧ step (prog [0x77#8]) = .next t := ⟨_, by decide, by decide, rfl⟩
theorem witness_MemoryChangesExactlyByBusWrites : ∃ t, (prog [0xC5#8]).mem.wf = true ∧
    step (prog [0xC5#8]) = .next t := ⟨_, by decide, rfl⟩
theorem witness_BusReadsAnswerWhatMemoryHeld : ∃ t, step (prog [0x34#8]) = .next t ∧
    .read 0x0000#16 ((prog [0x34#8]).peek 0x0000#16) ∈ t.bus := ⟨_, rfl, by decide⟩
theorem witness_BusTraceIsFetchesThenTabledAccesses : ∃ t, (prog [0x34#8]).halted = false ∧
    (Instr.inc8 .indHl).wellFormed = true ∧ (prog [0x34#8]).fetchesBytes 0x0100#16 (encode (.inc8 .indHl)) ∧
    step (prog [0x34#8]) = .next t := ⟨_, by decide, by decide, ⟨by decide, trivial⟩, rfl⟩
theorem witness_FlagsChangeOnlyAsTabled : ∃ t, exec (.inc8 .indHl) State.reset = .next t ∧
    Flag.c ∉ flagsWritten (.inc8 .indHl) := ⟨_, rfl, by decide⟩
theorem witness_RegistersChangeOnlyAsTabled : ∃ t, exec (.pop .bc) State.reset = .next t ∧ R8.a ≠ .f ∧
    R8.a ∉ regsWritten (.pop .bc) ∧ writesPc (.pop .bc) = false ∧ writesSp (.addHl .sp) = false :=
  ⟨_, rfl, by decide, by decide, rfl, rfl⟩
theorem witness_OnlyHaltEntersHalted : ∃ t, exec .halt State.reset = .next t := ⟨_, rfl⟩
theorem witness_ImeIsWrittenByThreeAndReadByNone : (∃ t, exec .reti State.reset = .next t) ∧
    exec .stop State.reset = .fault (.unknownOpcode 0x10#8) := ⟨⟨_, rfl⟩, rfl⟩
/-- The hypothesis of every statement about a state whose memory is in canonical form: WordAccessIsLittleEndian,
Inc8AndDec8StepTheOperand, CbRotatesGiveResultAndCarry, CbShiftsGiveResultAndCarry, ResAndSetChangeOneBit,
PostStepLoadsMoveHl, StoreSpWritesItsTwoBytes, PushStoresTheRegister. -/
theorem witness_canonical_memory : (prog [0x34#8, 0x00#8, 0xFF#8]).mem.wf = true := by decide
theorem witness_EightBitWriteChangesOneRegister : R8.c ≠ R8.b := by decide
theorem witness_SixteenBitWriteChangesOneRegister : R16.af ≠ R16.sp := by decide
theorem witness_DaaGivesPackedBcdAfterAddAndSub : 99 < 100 ∧ 0 < 100 ∧
    ({ State.reset with a := 0x99#8 } : State).a = BitVec.ofNat 8 (99 / 10 * 16 + 99 % 10) := by decide
theorem witness_Inc16AndDec16TouchNoFlag : R16.pc ≠ pairOf .sp := by decide
theorem witness_CbOperandIsRegisterOrByteAtHl : State.reset.mem.wf = true ∧ loc8Of (opZ 0x47#8) = .reg .a ∧
    opZ 0x46#8 = 6#3 ∧ opX 0x46#8 = 1#2 := by decide
theorem witness_ConditionalTransfersFollowTheirCondition :
    State.reset.cond .nz = true ∧ State.reset.cond .c = false := by decide
theorem witness_NotTakenTransferOnlyPassesItsBytes :
    (Instr.callCc .z 0x1234#16) ∈ [Instr.jpCc .z 0x1234#16, .jrCc .z 0x00#8, .callCc .z 0x1234#16, .retCc .z] ∧
    (prog [0xCC#8, 0x34#8, 0x12#8]).halted = false ∧
    (prog [0xCC#8, 0x34#8, 0x12#8]).fetchesBytes 0x0100#16 (encode (.callCc .z 0x1234#16)) ∧
    (prog [0xCC#8, 0x34#8, 0x12#8]).cond .z = false :=
  ⟨by decide, by decide, ⟨by decide, by decide, by decide, trivial⟩, by decide⟩
theorem witness_CallAndRstPushTheReturnAddress : State.reset.mem.wf = true ∧
    ((Instr.rst 7#3 = .call 0x0038#16 ∧ 0x0038#16 = 0x0038#16) ∨
      (Instr.rst 7#3 = .rst 7#3 ∧ 0x0038#16 = BitVec.ofNat 16 (8 * (7#3).toNat))) ∧
    (Instr.call 0x0000#16 = .call 0x0000#16 ∧ 0x0000#16 = 0x0000#16) := by decide
theorem witness_RetAndRetiPopPc : (Instr.ret = .ret ∨ Instr.ret = .reti) ∧ (Instr.reti = .ret ∨ Instr.reti = .reti) := by
  decide
theorem witness_RetAfterCallComesBack : ∃ t, State.reset.mem.wf = true ∧
    exec (.call 0x1234#16) { State.reset with sp := 0x0001#16 } = .next t := ⟨_, by decide, rfl⟩
theorem witness_RegisterLoadsCopyTheirSource : RegPair.hl ≠ .sp := by decide
theorem witness_MemoryLoadsReadOneByte :
    ((Instr.ldhAA8 0xFF#8, R8.a, 0xFFFF#16) : Instr × R8 × Word) ∈ [(.ldRHl .b, regOf .b, State.reset.h ++ State.reset.l),
      (.ldABc, .a, State.reset.b ++ State.reset.c), (.ldADe, .a, State.reset.d ++ State.reset.e),
      (.ldAA16 0#16, .a, 0#16), (.ldhAC, .a, 0xFF#8 ++ State.reset.c), (.ldhAA8 0xFF#8, R8.a, 0xFF#8 ++ 0xFF#8)] := by decide
theorem witness_MemoryStoresWriteOneByte : State.reset.mem.wf = true ∧
    ((Instr.ldhA8A 0x00#8, 0xFF00#16, State.reset.a) : Instr × Word × Byte) ∈
      [(.ldHlR .b, State.reset.h ++ State.reset.l, State.reset.r8 (regOf .b)),
      (.ldHlD8 0#8, State.reset.h ++ State.reset.l, 0#8), (.ldBcA, State.reset.b ++ State.reset.c, State.reset.a),
      (.ldDeA, State.reset.d ++ State.reset.e, State.reset.a), (.ldA16A 0#16, 0#16, State.reset.a),
      (.ldhCA, 0xFF#8 ++ State.reset.c, State.reset.a), (Instr.ldhA8A 0x00#8, 0xFF#8 ++ 0x00#8, State.reset.a)] := by
  decide
theorem witness_PopLoadsTheRegister : StackPair.af = .af := by decide
theorem witness_PopAfterPushRestores : ∃ t, State.reset.mem.wf = true ∧ exec (.push .af) State.reset = .next t :=
  ⟨_, by decide, rfl⟩
theorem witness_UndefinedOpcodesRaiseUnknownOpcode : (Instr.undefined 0xD3#8).wellFormed = true ∧
    (Instr.undefined 0xFD#8).wellFormed = true := by decide

end Sys2Proof.Tests
end

/-! ## What an instruction does to the state, said once

Every meaning of `exec` is a sequence of a few primitive operations. A property that each primitive keeps is kept by
every instruction and by every step. -/

namespace Sys2Proof.Machine

/-- One primitive operation of a meaning on the state. -/
inductive StateOp : State → State → Prop where
  | setR8 (s : State) (x : R8) (v : Byte) : StateOp s (s.setR8 x v)
  | setR16 (s : State) (x : R16) (v : Word) : StateOp s (s.setR16 x v)
  | read (s : State) (addr : Word) : StateOp s (s.log (.read addr (s.peek addr)))
  | ifetch (s : State) (addr : Word) : StateOp s (s.log (.ifetch addr (s.ipeek addr)))
  | write (s : State) (addr : Word) (v : Byte) : StateOp s (s.memWrite8 addr v)
  | setIme (s : State) (b : Bool) : StateOp s { s with ime := b }
  | halt (s : State) : StateOp s { s with halted := true }

/-- `t` comes from `s` by primitive operations. -/
abbrev StateOps : State → State → Prop := Relation.ReflTransGen StateOp

namespace StateOps

variable {s t : State} (h : StateOps s t)
include h

theorem setR8 (x : R8) (v : Byte) : StateOps s (t.setR8 x v) := h.tail (.setR8 t x v)

theorem setR16 (x : R16) (v : Word) : StateOps s (t.setR16 x v) := h.tail (.setR16 t x v)

theorem setFlags (z n hf c : Option Bool) : StateOps s (t.setFlags z n hf c) := h.setR8 .f _

theorem memRead8 (addr : Word) : StateOps s (t.memRead8 addr).2 := h.tail (.read t addr)

theorem memWrite8 (addr : Word) (v : Byte) : StateOps s (t.memWrite8 addr v) := h.tail (.write t addr v)

theorem memWrite16 (addr v : Word) : StateOps s (t.memWrite16 addr v) := (h.memWrite8 _ _).memWrite8 _ _

theorem setIme (b : Bool) : StateOps s { t with ime := b } := h.tail (.setIme t b)

theorem readLoc8 (x : Loc8) : StateOps s (t.readLoc8 x).2 := by
  cases x with
  | reg r => exact h
  | indHl => exact h.memRead8 _

theorem readSrc8 (x : Src8) : StateOps s (t.readSrc8 x).2 := by
  cases x with
  | loc x => exact h.readLoc8 x
  | imm d8 => exact h

theorem writeLoc8 (x : Loc8) (v : Byte) : StateOps s (t.writeLoc8 x v) := by
  cases x with
  | reg r => exact h.setR8 _ v
  | indHl => exact h.memWrite8 _ v

theorem aluToA (op : Byte → Byte → AluResult) (x : Src8) : StateOps s (t.aluToA op x) :=
  ((h.readSrc8 x).setR8 .a _).setFlags _ _ _ _

theorem rotateA (op : Byte → Byte × Bool) : StateOps s (t.rotateA op) := (h.setR8 .a _).setFlags _ _ _ _

/-- R188: an 8-bit operand is read and written back. -/
theorem modifyLoc8 (x : Loc8) (v : Byte) : StateOps s ((t.readLoc8 x).2.writeLoc8 x v) := (h.readLoc8 x).writeLoc8 x v

theorem rotateLoc (op : Byte → Byte × Bool) (x : Loc8) : StateOps s (t.rotateLoc op x) :=
  (h.modifyLoc8 x _).setFlags _ _ _ _

theorem loadR8 (x : R8) (addr : Word) : StateOps s (t.loadR8 x addr) := (h.memRead8 addr).setR8 x _

theorem push16 (v : Word) : StateOps s (t.push16 v) := (h.setR16 .sp _).memWrite16 _ v

theorem pop16 : StateOps s t.pop16.2 := ((h.memRead8 t.sp).memRead8 (t.sp + 1#16)).setR16 .sp _

theorem callTo (target : Word) : StateOps s (t.callTo target) := (h.push16 _).setR16 .pc target

theorem returnFromStack : StateOps s t.returnFromStack := h.pop16.setR16 .pc _

theorem jumpRel (e : Byte) : StateOps s (t.jumpRel e) := h.setR16 .pc _

theorem ite {u : State} (hu : StateOps s u) (c : Prop) [Decidable c] : StateOps s (if c then t else u) := by
  split
  · exact h
  · exact hu

theorem fetch8 : StateOps s t.fetch8.2 := (h.setR16 .pc _).tail (.ifetch _ t.pc)

theorem fetchInstr : StateOps s t.fetchInstr.2 := by
  unfold State.fetchInstr
  dsimp only
  split
  · exact h.fetch8
  · exact h.fetch8.fetch8
  · exact h.fetch8.fetch8.fetch8

end StateOps

/-- A result whose next state, if it is one, comes from `s` by primitive operations; it is never a refusal. -/
def EndsByOps (s : State) : Result → Prop
  | .next t => StateOps s t
  | .fault _ => True
  | .refused _ => False

/-- R287: every CB-space instruction works by primitive operations. -/
theorem execPrefixCb_endsByOps (op2 : Byte) (s : State) : EndsByOps s (execPrefixCb op2 s) := by
  have start : StateOps s s := .refl
  unfold execPrefixCb
  dsimp only
  split
  · split <;> exact start.rotateLoc _ _
  · exact (start.readLoc8 _).setFlags _ _ _ _
  · exact start.modifyLoc8 _ _
  · exact start.modifyLoc8 _ _

/-- Every instruction works by primitive operations. -/
theorem exec_endsByOps (i : Instr) (s : State) : EndsByOps s (exec i s) := by
  have start : StateOps s s := .refl
  cases i with
  | nop => exact start
  | di | ei => exact start.setIme _
  | halt => exact start.tail (.halt s)
  | stop | undefined => exact trivial
  | prefixCb op2 => exact execPrefixCb_endsByOps op2 s
  | addA x | adcA x | subA x | sbcA x | andA x | xorA x | orA x => exact start.aluToA _ x
  | cpA x => exact (start.readSrc8 x).setFlags _ _ _ _
  | inc8 x | dec8 x => exact (start.modifyLoc8 x _).setFlags _ _ _ _
  | daa | cpl => exact (start.setR8 .a _).setFlags _ _ _ _
  | scf | ccf => exact start.setFlags _ _ _ _
  | addHl | addSp | ldHlSp => exact (start.setR16 _ _).setFlags _ _ _ _
  | inc16 | dec16 | ldRrD16 | ldSpHl | jp | jpHl => exact start.setR16 _ _
  | rlca | rrca | rla | rra => exact start.rotateA _
  | rlc x | rrc x | rl x | rr x | sla x | sra x | swap x | srl x => exact start.rotateLoc _ x
  | bit b x => exact (start.readLoc8 x).setFlags _ _ _ _
  | res b x | setBit b x => exact start.modifyLoc8 x _
  | jpCc cc a16 => exact (start.setR16 .pc a16).ite start _
  | jr e => exact start.jumpRel e
  | jrCc cc e => exact (start.jumpRel e).ite start _
  | call | rst => exact start.callTo _
  | callCc cc a16 => exact (start.callTo a16).ite start _
  | ret => exact start.returnFromStack
  | retCc cc => exact start.returnFromStack.ite start _
  | reti => exact start.returnFromStack.setIme true
  | ldRR | ldRD8 => exact start.setR8 _ _
  | ldRHl | ldABc | ldADe | ldAA16 | ldhAC | ldhAA8 => exact start.loadR8 _ _
  | ldHlR | ldHlD8 | ldBcA | ldDeA | ldA16A | ldhCA | ldhA8A => exact start.memWrite8 _ _
  | ldHliA | ldHldA => exact (start.memWrite8 _ _).setR16 .hl _
  | ldAHli | ldAHld => exact (start.loadR8 _ _).setR16 .hl _
  | ldA16Sp a16 => exact start.memWrite16 a16 _
  | push qq => exact start.push16 _
  | pop qq => exact start.pop16.setR16 _ _

/-- Every instruction that completes has come to its state by primitive operations. -/
theorem exec_stateOps {i : Instr} {s t : State} (h : exec i s = .next t) : StateOps s t := by
  have ends := exec_endsByOps i s
  rwa [h] at ends

/-- R280, R281: every step that completes has come, from an empty bus, to its state by primitive operations. -/
theorem step_stateOps {s t : State} (h : step s = .next t) : StateOps s.beginStep t := by
  cases hh : s.halted with
  | true =>
    obtain rfl : s.beginStep = t := by simpa [step_halted s hh] using h
    exact .refl
  | false =>
    have fetched : StateOps s.beginStep s.beginStep.fetchInstr.2 := StateOps.fetchInstr .refl
    exact fetched.trans (exec_stateOps (step_running s hh ▸ h))

/-- R10, R52: no primitive operation changes the parameters or the instruction memory. -/
theorem StateOp.keeps_config_imem {s t : State} (h : StateOp s t) : t.config = s.config ∧ t.imem = s.imem := by
  cases h <;> simp

/-- R10, R52: no sequence of primitive operations changes the parameters or the instruction memory. -/
theorem StateOps.keeps_config_imem {s t : State} (h : StateOps s t) : t.config = s.config ∧ t.imem = s.imem := by
  induction h with
  | refl => exact ⟨rfl, rfl⟩
  | tail _ op ih =>
    obtain ⟨hconfig, himem⟩ := op.keeps_config_imem
    exact ⟨hconfig.trans ih.1, himem.trans ih.2⟩

/-- R52: with FetchSpace `split` the instruction-stream port reads the instruction memory alone. -/
theorem State.ipeek_split {s : State} (h : s.config.fetchSpace = .split) (addr : Word) :
    s.ipeek addr = s.imem.read addr.toNat := by
  simp [ipeek, h]

/-- Settles O14: each primitive operation keeps the parameters and the instruction memory, and under `split` these two
determine what is fetched. -/
theorem noStepWritesParametersOrSplitCode : Obligations.NoStepWritesParametersOrSplitCode := by
  intro s t hstep
  obtain ⟨hconfig, himem⟩ : t.config = s.config ∧ t.imem = s.imem := (step_stateOps hstep).keeps_config_imem
  refine ⟨hconfig, himem, fun hsplit addr => ?_⟩
  rw [State.ipeek_split hsplit, State.ipeek_split (hconfig ▸ hsplit), himem]

/-! ## The failed step -/

/-- R103: each of the twelve bytes decodes to its own failure, whatever bytes follow. -/
theorem decodeBytes_failing {b0 : Byte} (h : b0 ∈ failingBytes) (b1 b2 : Byte) :
    decodeBytes b0 b1 b2 = if b0 = 0x10#8 then .stop else .undefined b0 := by
  simp only [failingBytes, undefinedBytes, List.mem_cons, List.not_mem_nil, or_false] at h
  rcases h with rfl | rfl | rfl | rfl | rfl | rfl | rfl | rfl | rfl | rfl | rfl | rfl <;> rfl

/-- R286, R288, R301: a running core whose byte at PC is one of the twelve fails with that byte. -/
theorem step_failing {s : State} (hrun : s.halted = false) (hfail : s.ipeek s.pc ∈ failingBytes) :
    step s = .fault (.unknownOpcode (s.ipeek s.pc)) := by
  rw [step_running s hrun, State.fetchInstr_eq]
  simp only [State.beginStep_ipeek, State.beginStep_pc, decodeBytes_failing hfail]
  split
  next hstop => rw [hstop]; rfl
  next => rfl

/-! ## The environment's events and the ports after them -/

theorem environment_step_of_next {s t : State} (h : step s = .next t) :
    environment .step s = (t, t.ports true none) := by
  simp [environment, h]

theorem environment_step_of_fault {s : State} {r : Fault} (h : step s = .fault r) :
    environment .step s = (s.afterFault, s.afterFault.ports true (some r)) := by
  simp [environment, h]

/-- R301, R302: a failed step as its environment sees it. -/
theorem environment_step_failing {s : State} (hrun : s.halted = false) (hfail : s.ipeek s.pc ∈ failingBytes) :
    environment .step s = (s.afterFault, s.afterFault.ports true (some (.unknownOpcode (s.ipeek s.pc)))) :=
  environment_step_of_fault (step_failing hrun hfail)

/-- R301, R312: a step that fails again finds the same byte, and the state after it is the same. -/
theorem environment_step_failing_again {s : State} (hrun : s.halted = false) (hfail : s.ipeek s.pc ∈ failingBytes) :
    environment .step s.afterFault = environment .step s := by
  have again : s.afterFault.ipeek s.afterFault.pc ∈ failingBytes := hfail
  rw [environment_step_failing hrun hfail, environment_step_failing (s := s.afterFault) hrun again]
  rfl

/-- R8, R305, R322: after every event the ports are the ports of the state the event leaves. -/
theorem environment_ports (event : EnvEvent) (s : State) :
    ∃ done fault, (environment event s).2 = (environment event s).1.ports done fault := by
  cases event with
  | reset | write | load => exact ⟨_, _, rfl⟩
  | step =>
    unfold environment
    dsimp only
    split <;> exact ⟨_, _, rfl⟩

/-- Settles O10: a failing byte faults before anything is changed and is found again by the next step; the ports of each
outcome of a step are those of `State.ports`. -/
theorem failedStepIsAtomicAndRepeats : Obligations.FailedStepIsAtomicAndRepeats := by
  refine ⟨fun s hrun hfail => ?_, fun s t hstep => ?_, fun s => ⟨rfl, rfl, rfl⟩, fun event s => ?_⟩
  · have again := environment_step_failing_again hrun hfail
    rw [environment_step_failing hrun hfail] at again ⊢
    exact ⟨rfl, rfl, rfl, rfl, rfl, again⟩
  · rw [environment_step_of_next hstep]
    exact ⟨rfl, rfl, rfl, rfl, rfl⟩
  · obtain ⟨done, fault, hports⟩ := environment_ports event s
    simp only [hports]
    exact ⟨rfl, rfl, rfl, rfl, rfl, rfl, rfl, rfl, rfl⟩

end Sys2Proof.Machine

/-! ## The invariant -/

namespace Sys2Proof.Machine

/-- R26, R38: every primitive operation keeps the canonical form of both memories and F's low nibble. -/
theorem StateOp.keeps_inv {s t : State} (h : StateOp s t) (hinv : s.Inv) : t.Inv := by
  obtain ⟨hmem, himem, hf⟩ := hinv
  cases h with
  | setR8 x v => exact ⟨by simpa using hmem, by simpa using himem, s.setR8_f_low x v hf⟩
  | setR16 x v => exact ⟨by simpa using hmem, by simpa using himem, s.setR16_f_low x v hf⟩
  | write addr v => exact ⟨s.memWrite8_wf addr v hmem, himem, hf⟩
  | read | ifetch | setIme | halt => exact ⟨hmem, himem, hf⟩

/-- R26, R38: every sequence of primitive operations keeps the invariant. -/
theorem StateOps.keeps_inv {s t : State} (h : StateOps s t) (hinv : s.Inv) : t.Inv := by
  induction h with
  | refl => exact hinv
  | tail _ op ih => exact op.keeps_inv ih

/-- Settles O13: a step is a sequence of primitive operations from the state with an empty bus, and each of them keeps the
invariant. -/
theorem everyStepKeepsTheInvariant : Obligations.EveryStepKeepsTheInvariant := by
  intro s t hinv hstep
  have hbegin : s.beginStep.Inv := hinv
  exact (step_stateOps hstep).keeps_inv hbegin

/-! ## Reset -/

/-- Settles O11: both profiles, field by field. -/
theorem resetGivesTheProfileValues : Obligations.ResetGivesTheProfileValues := by
  refine fun s => ⟨rfl, fun hzero => ?_, fun hpost => ?_⟩
  · simp [environment, State.applyReset, State.resetFor, hzero]
  · simp [environment, State.applyReset, State.resetFor, hpost, State.r16, State.r8, cat, fMask]

/-- R37: reset under either profile lists no memory and clears F's low nibble. -/
theorem State.resetFor_inv (config : Config) : (State.resetFor config).Inv := by
  obtain ⟨_ | _, _⟩ := config <;> exact ⟨rfl, rfl, by simp [resetFor]⟩

/-- Settles O12: the reset state is the one of the default parameters. -/
theorem resetSatisfiesTheInvariant : Obligations.ResetSatisfiesTheInvariant :=
  ⟨State.resetFor_inv Config.default, State.resetFor_inv⟩

/-! ## The halted core -/

/-- R34, R280: `t` is halted with the IME and the registers of `s`. -/
def HaltedAs (s t : State) : Prop := t.halted = true ∧ t.ime = s.ime ∧ ∀ r : R16, t.r16 r = s.r16 r

theorem HaltedAs.trans {s t u : State} (h : HaltedAs s t) (h' : HaltedAs t u) : HaltedAs s u := by
  obtain ⟨-, hime, hregs⟩ := h
  obtain ⟨hhalted', hime', hregs'⟩ := h'
  exact ⟨hhalted', hime'.trans hime, fun r => (hregs' r).trans (hregs r)⟩

/-- R280, R321: in `halted` an event other than reset leaves `halted`, IME and every register. -/
theorem environment_haltedAs {event : EnvEvent} {s : State} (hhalted : s.halted = true) (hevent : event ≠ .reset) :
    HaltedAs s (environment event s).1 := by
  cases event with
  | reset => exact absurd rfl hevent
  | step =>
    rw [environment_step_of_next (step_halted s hhalted)]
    exact ⟨hhalted, rfl, s.beginStep_r16⟩
  | write | load => exact ⟨hhalted, rfl, fun r => by cases r <;> rfl⟩

/-- R34, R323: so does every sequence of such events. -/
theorem environmentRun_haltedAs {events : List EnvEvent} (hreset : .reset ∉ events) :
    ∀ {s : State}, s.halted = true → HaltedAs s (environmentRun events s) := by
  induction events with
  | nil => exact fun hhalted => ⟨hhalted, rfl, fun _ => rfl⟩
  | cons event events ih =>
    intro s hhalted
    obtain ⟨hevent, hevents⟩ := List.ne_and_not_mem_of_not_mem_cons hreset
    have hfirst := environment_haltedAs hhalted (Ne.symm hevent)
    exact hfirst.trans (ih hevents hfirst.1)

/-- Settles O8, by induction over the events. -/
theorem onlyResetLeavesHalted : Obligations.OnlyResetLeavesHalted :=
  fun _ _ hhalted hreset => environmentRun_haltedAs hreset hhalted

/-! ## Register, flag and condition primitives -/

/-- Settles O23: F is the one register whose write is masked. -/
theorem eightBitWriteChangesOneRegister : Obligations.EightBitWriteChangesOneRegister := by
  intro s x v
  refine ⟨?_, fun y hy => s.setR8_r8_ne x y v hy, by simp, by simp, by simp, by simp, by simp, by simp, by simp⟩
  split
  case isTrue hf => subst hf; exact s.setR8_r8_f v
  case isFalse hf => exact s.setR8_r8_same x v hf

/-- Settles O24: AF is the one 16-bit register whose write is masked; each pair is read and written by its halves. -/
theorem sixteenBitWriteChangesOneRegister : Obligations.SixteenBitWriteChangesOneRegister := by
  intro s x v
  refine ⟨?_, fun y hy => s.setR16_r16_ne x y v hy, by simp, by simp, by simp, by simp, by simp, rfl, rfl, rfl, rfl,
    rfl, State.setR8_r8_f _ _, rfl, rfl, rfl, rfl, rfl, rfl⟩
  split
  case isTrue haf => subst haf; exact s.setR16_r16_af v
  case isFalse haf => exact s.setR16_r16_same x v haf

/-- Settles O25: a flag write is a write of F, and F reads without its low nibble. -/
theorem flagWriteChangesOnlyTheFlagsGiven : Obligations.FlagWriteChangesOnlyTheFlagsGiven := by
  intro s z n h c
  have hflags : FlagsAre (s.setFlags z n h c) (z.getD (s.flag .z)) (n.getD (s.flag .n)) (h.getD (s.flag .h))
      (c.getD (s.flag .c)) :=
    ⟨s.setFlags_flag_z z n h c, s.setFlags_flag_n z n h c, s.setFlags_flag_h z n h c, s.setFlags_flag_c z n h c⟩
  exact ⟨hflags, s.setFlags_r8 z n h c, rfl, rfl, rfl, rfl, rfl, rfl, rfl, ⟨rfl, rfl, rfl, rfl⟩, s.r8_f_low⟩

/-- Settles O26: a code without N reads its flag, a code with N the flag's negation. -/
theorem conditionCodesReadZAndC : Obligations.ConditionCodesReadZAndC :=
  fun _ => ⟨iff_of_eq (Bool.not_eq_true' _), Iff.rfl, iff_of_eq (Bool.not_eq_true' _), Iff.rfl⟩

/-! ## IME set aside (R33) -/

/-- The state with IME as given (R33). -/
def State.withIme (s : State) (b : Bool) : State := { s with ime := b }

namespace State

variable (s : State) (b : Bool)

@[simp] theorem withIme_self : s.withIme s.ime = s := rfl
@[simp] theorem withIme_peek (addr : Word) : (s.withIme b).peek addr = s.peek addr := rfl
@[simp] theorem withIme_r8 (x : R8) : (s.withIme b).r8 x = s.r8 x := by cases x <;> rfl
@[simp] theorem withIme_r16 (x : R16) : (s.withIme b).r16 x = s.r16 x := by cases x <;> rfl
@[simp] theorem withIme_cond (cc : Cond) : (s.withIme b).cond cc = s.cond cc := by cases cc <;> rfl
@[simp] theorem withIme_locValue (x : Loc8) : (s.withIme b).locValue x = s.locValue x := by
  cases x <;> simp [locValue]
@[simp] theorem withIme_srcValue (x : Src8) : (s.withIme b).srcValue x = s.srcValue x := by
  cases x <;> simp [srcValue]
@[simp] theorem withIme_locReads (x : Loc8) : (s.withIme b).locReads x = s.locReads x := by
  cases x <;> simp [locReads]
@[simp] theorem withIme_srcReads (x : Src8) : (s.withIme b).srcReads x = s.srcReads x := by
  cases x <;> simp [srcReads]

/-! An operation of a meaning does the same whatever IME is, and leaves IME. -/

theorem withIme_logs (acc : List BusAccess) : (s.withIme b).logs acc = (s.logs acc).withIme b := rfl
theorem withIme_setR8 (x : R8) (v : Byte) : (s.withIme b).setR8 x v = (s.setR8 x v).withIme b := by cases x <;> rfl
theorem withIme_setR16 (x : R16) (v : Word) : (s.withIme b).setR16 x v = (s.setR16 x v).withIme b := by cases x <;> rfl
theorem withIme_setFlags (z n h c : Option Bool) :
    (s.withIme b).setFlags z n h c = (s.setFlags z n h c).withIme b := rfl
theorem withIme_memWrite8 (addr : Word) (v : Byte) :
    (s.withIme b).memWrite8 addr v = (s.memWrite8 addr v).withIme b := rfl
theorem withIme_writeLoc8 (x : Loc8) (v : Byte) : (s.withIme b).writeLoc8 x v = (s.writeLoc8 x v).withIme b := by
  cases x
  · exact s.withIme_setR8 b _ v
  · rfl
theorem withIme_aluToA (op : Byte → Byte → AluResult) (x : Src8) :
    (s.withIme b).aluToA op x = (s.aluToA op x).withIme b := by
  simp only [aluToA_eq, withIme_srcReads, withIme_srcValue]
  rfl
/-- R188: an 8-bit operand is read and written back. -/
theorem withIme_modifyLoc8 (x : Loc8) (v : Byte) :
    ((s.withIme b).logs ((s.withIme b).locReads x)).writeLoc8 x v =
    ((s.logs (s.locReads x)).writeLoc8 x v).withIme b := by
  rw [withIme_locReads, withIme_logs, withIme_writeLoc8]
theorem withIme_rotateLoc (op : Byte → Byte × Bool) (x : Loc8) :
    (s.withIme b).rotateLoc op x = (s.rotateLoc op x).withIme b := by
  simp only [rotateLoc_eq, withIme_modifyLoc8, withIme_locValue, withIme_setFlags]
theorem withIme_loadR8 (x : R8) (addr : Word) : (s.withIme b).loadR8 x addr = (s.loadR8 x addr).withIme b := by
  simp only [loadR8_eq, withIme_peek, withIme_logs, withIme_setR8]

/-- R29: a choice by a condition code is the same whatever IME is. -/
theorem withIme_ite_cond (cc : Cond) (t u : State) :
    (if (s.withIme b).cond cc then t.withIme b else u.withIme b) = (if s.cond cc then t else u).withIme b := by
  rw [withIme_cond]
  split <;> rfl

end State

/-- R33: IME is no register, no flag and no byte of memory. -/
theorem Frame.withIme (s : State) (b : Bool) : Frame s (s.withIme b) [] [] [] :=
  ⟨fun r _ _ => s.withIme_r8 b r, fun _ _ => rfl, fun _ _ => rfl, rfl, rfl⟩

/-! ## What the tables let an instruction write (R30 to R32, R39) -/

/-- `t` is `s` but for what R30 to R32 and R39 let the instruction `i` write; `halted` but for HALT (R34). -/
structure ChangesAsTabled (i : Instr) (s t : State) : Prop where
  regs : ∀ r, r ≠ .f → r ∉ regsWritten i → t.r8 r = s.r8 r
  flags : ∀ x, x ∉ flagsWritten i → t.flag x = s.flag x
  sp : writesSp i = false → t.sp = s.sp
  pc : writesPc i = false → t.pc = s.pc
  halted : i ≠ .halt → t.halted = s.halted

/-- The flags that a flag write with these arguments writes (R28). -/
def flagsGiven (z n h c : Option Bool) : List Flag :=
  (z.map fun _ => Flag.z).toList ++ (n.map fun _ => Flag.n).toList ++ (h.map fun _ => Flag.h).toList ++
    (c.map fun _ => Flag.c).toList

/-- R28: a flag write changes the flags given. -/
theorem Frame.setFlags_given (s : State) (z n h c : Option Bool) :
    Frame s (s.setFlags z n h c) [] (flagsGiven z n h c) [] :=
  Frame.setFlags s z n h c _ (by cases z <;> simp [flagsGiven]) (by cases n <;> simp [flagsGiven])
    (by cases h <;> simp [flagsGiven]) (by cases c <;> simp [flagsGiven])

/-- R24, R26: a write of AF changes A and the flags. -/
theorem Frame.setAf (s : State) (v : Word) : Frame s (s.setR16 .af v) [.a] [.z, .n, .h, .c] [] :=
  ⟨fun r hf hr => s.setR16_r8_ne .af r v hf hr, fun x hx => absurd (by cases x <;> simp) hx, fun _ _ => by simp,
    by simp, by simp⟩

namespace ChangesAsTabled

variable {i : Instr} {s t : State}

theorem refl (i : Instr) (s : State) : ChangesAsTabled i s s :=
  ⟨fun _ _ _ => rfl, fun _ _ => rfl, fun _ => rfl, fun _ => rfl, fun _ => rfl⟩

variable (h : ChangesAsTabled i s t)
include h

/-- A change within a frame that the tables allow, which leaves SP, PC and `halted`. -/
theorem frame {u : State} {regs : List R8} {flags : List Flag} {stores : List Word} (hframe : Frame t u regs flags stores)
    (hregs : regs ⊆ regsWritten i) (hflags : flags ⊆ flagsWritten i)
    (hsp : u.sp = t.sp) (hpc : u.pc = t.pc) (hhalted : u.halted = t.halted) : ChangesAsTabled i s u where
  regs r hf hr := (hframe.regs r hf fun hmem => hr (hregs hmem)).trans (h.regs r hf hr)
  flags x hx := (hframe.flags x fun hmem => hx (hflags hmem)).trans (h.flags x hx)
  sp hw := hsp.trans (h.sp hw)
  pc hw := hpc.trans (h.pc hw)
  halted hne := hhalted.trans (h.halted hne)

theorem logs (accesses : List BusAccess) : ChangesAsTabled i s (t.logs accesses) :=
  h.frame (.logs t accesses) (List.nil_subset _) (List.nil_subset _) rfl rfl rfl

theorem memWrite8 (addr : Word) (v : Byte) : ChangesAsTabled i s (t.memWrite8 addr v) :=
  h.frame (.memWrite8 t addr v) (List.nil_subset _) (List.nil_subset _) rfl rfl rfl

theorem memWrite16 (addr v : Word) : ChangesAsTabled i s (t.memWrite16 addr v) :=
  h.frame (.memWrite16 t addr v) (List.nil_subset _) (List.nil_subset _) rfl rfl rfl

theorem withIme (b : Bool) : ChangesAsTabled i s (t.withIme b) :=
  h.frame (.withIme t b) (List.nil_subset _) (List.nil_subset _) rfl rfl rfl

theorem setR8 {x : R8} (v : Byte) (hx : x ≠ .f) (hregs : [x] ⊆ regsWritten i) : ChangesAsTabled i s (t.setR8 x v) :=
  h.frame (.setR8 t x v hx) hregs (List.nil_subset _) (by simp) (by simp) (by simp)

theorem setFlags (z n hf c : Option Bool) (hflags : flagsGiven z n hf c ⊆ flagsWritten i) :
    ChangesAsTabled i s (t.setFlags z n hf c) :=
  h.frame (.setFlags_given t z n hf c) (List.nil_subset _) hflags rfl rfl rfl

theorem setAf (v : Word) (hregs : [.a] ⊆ regsWritten i) (hflags : [.z, .n, .h, .c] ⊆ flagsWritten i) :
    ChangesAsTabled i s (t.setR16 .af v) :=
  h.frame (.setAf t v) hregs hflags rfl rfl rfl

/-- R25: a write of BC, DE or HL. -/
theorem setPair {x : R16} (v : Word) (haf : x ≠ .af) (hsp : x ≠ .sp) (hpc : x ≠ .pc)
    (hregs : pairHalves x ⊆ regsWritten i) : ChangesAsTabled i s (t.setR16 x v) :=
  h.frame (.setR16 t x v haf) hregs (List.nil_subset _) (t.setR16_sp_ne x v hsp) (t.setR16_pc_ne x v hpc) (by simp)

/-- R31: a write of SP, by an instruction that may write it. -/
theorem setSp (v : Word) (hw : writesSp i = true) : ChangesAsTabled i s (t.setR16 .sp v) where
  regs r hf hr := (t.setR16_r8_sp v r).trans (h.regs r hf hr)
  flags := h.flags
  sp hno := absurd hno (by simp [hw])
  pc := h.pc
  halted := h.halted

/-- R30: a write of PC, by an instruction that may write it. -/
theorem setPc (v : Word) (hw : writesPc i = true) : ChangesAsTabled i s (t.setR16 .pc v) where
  regs r hf hr := (t.setR16_r8_pc v r).trans (h.regs r hf hr)
  flags := h.flags
  sp := h.sp
  pc hno := absurd hno (by simp [hw])
  halted := h.halted

theorem memRead8 (addr : Word) : ChangesAsTabled i s (t.memRead8 addr).2 := h.logs _

theorem readLoc8 (x : Loc8) : ChangesAsTabled i s (t.readLoc8 x).2 := by
  rw [t.readLoc8_eq]
  exact h.logs _

theorem readSrc8 (x : Src8) : ChangesAsTabled i s (t.readSrc8 x).2 := by
  rw [t.readSrc8_eq]
  exact h.logs _

/-- R188: an 8-bit operand is read and written back. -/
theorem modifyLoc8 (x : Loc8) (v : Byte) (hregs : locRegs x ⊆ regsWritten i) :
    ChangesAsTabled i s ((t.readLoc8 x).2.writeLoc8 x v) :=
  (h.readLoc8 x).frame (.writeLoc8 _ x v) hregs (List.nil_subset _) (by simp) (by simp) (by simp)

theorem aluToA (op : Byte → Byte → AluResult) (x : Src8) (hregs : [.a] ⊆ regsWritten i)
    (hflags : [.z, .n, .h, .c] ⊆ flagsWritten i) : ChangesAsTabled i s (t.aluToA op x) :=
  ((h.readSrc8 x).setR8 _ (by decide) hregs).setFlags _ _ _ _ hflags

theorem rotateA (op : Byte → Byte × Bool) (hregs : [.a] ⊆ regsWritten i)
    (hflags : [.z, .n, .h, .c] ⊆ flagsWritten i) : ChangesAsTabled i s (t.rotateA op) :=
  (h.setR8 _ (by decide) hregs).setFlags _ _ _ _ hflags

theorem rotateLoc (op : Byte → Byte × Bool) (x : Loc8) (hregs : locRegs x ⊆ regsWritten i)
    (hflags : [.z, .n, .h, .c] ⊆ flagsWritten i) : ChangesAsTabled i s (t.rotateLoc op x) :=
  (h.modifyLoc8 x _ hregs).setFlags _ _ _ _ hflags

theorem loadR8 {x : R8} (addr : Word) (hx : x ≠ .f) (hregs : [x] ⊆ regsWritten i) :
    ChangesAsTabled i s (t.loadR8 x addr) := (h.memRead8 addr).setR8 _ hx hregs

theorem push16 (v : Word) (hsp : writesSp i = true) : ChangesAsTabled i s (t.push16 v) :=
  (h.setSp _ hsp).memWrite16 _ v

theorem pop16 (hsp : writesSp i = true) : ChangesAsTabled i s t.pop16.2 :=
  ((h.memRead8 t.sp).memRead8 (t.sp + 1#16)).setSp _ hsp

theorem callTo (target : Word) (hsp : writesSp i = true) (hpc : writesPc i = true) :
    ChangesAsTabled i s (t.callTo target) := (h.push16 _ hsp).setPc target hpc

theorem returnFromStack (hsp : writesSp i = true) (hpc : writesPc i = true) :
    ChangesAsTabled i s t.returnFromStack := (h.pop16 hsp).setPc _ hpc

theorem ite {u : State} (hu : ChangesAsTabled i s u) (c : Prop) [Decidable c] :
    ChangesAsTabled i s (if c then t else u) := by
  split
  · exact h
  · exact hu

/-- R91: a write of the register of an `rp` field. -/
theorem setRegPair (rr : RegPair) (v : Word) (hregs : pairHalves (pairOf rr) ⊆ regsWritten i)
    (hsp : rr = .sp → writesSp i = true) : ChangesAsTabled i s (t.setR16 (pairOf rr) v) := by
  cases rr with
  | bc | de | hl => exact h.setPair v (by decide) (by decide) (by decide) hregs
  | sp => exact h.setSp v (hsp rfl)

/-- R92: a write of the register of an `rp2` field. -/
theorem setStackPair (qq : StackPair) (v : Word) (hregs : pairHalves (stackPairReg qq) ⊆ regsWritten i)
    (hflags : qq = .af → [.z, .n, .h, .c] ⊆ flagsWritten i) : ChangesAsTabled i s (t.setR16 (stackPairReg qq) v) := by
  cases qq with
  | bc | de | hl => exact h.setPair v (by decide) (by decide) (by decide) hregs
  | af => exact h.setAf v hregs (hflags rfl)

end ChangesAsTabled

/-- A result whose next state, if it is one, is changed as the tables say for `i`. -/
def EndsAsTabled (i : Instr) (s : State) : Result → Prop
  | .next t => ChangesAsTabled i s t
  | .fault _ => True
  | .refused _ => True

/-- R102: what the tables say of a CB-space instruction, by its field x. -/
theorem execPrefixCb_endsAsTabled (op2 : Byte) (s : State) : EndsAsTabled (.prefixCb op2) s (execPrefixCb op2 s) := by
  have start : ChangesAsTabled (.prefixCb op2) s s := .refl _ s
  have hx (n : Nat) (hn : (opX op2).toNat = n) : opX op2 = BitVec.ofNat 2 n := by simp [← hn]
  unfold execPrefixCb
  dsimp only
  split
  next h0 =>
    have hregs : locRegs (loc8Of (opZ op2)) ⊆ regsWritten (.prefixCb op2) := by simp [regsWritten, hx _ h0]
    have hflags : [.z, .n, .h, .c] ⊆ flagsWritten (.prefixCb op2) := by simp [flagsWritten, hx _ h0]
    split <;> exact start.rotateLoc _ _ hregs hflags
  next h1 =>
    have hflags : [.z, .n, .h] ⊆ flagsWritten (.prefixCb op2) := by simp [flagsWritten, hx _ h1]
    exact (start.readLoc8 _).setFlags _ _ _ _ hflags
  next h2 =>
    exact start.modifyLoc8 _ _ (by simp [regsWritten, hx _ h2])
  next _ h1 _ =>
    have hne : opX op2 ≠ 1#2 := fun h => h1 (by simp [h])
    exact start.modifyLoc8 _ _ (by simp [regsWritten, hne])

/-- R30 to R32, R34, R39: every instruction keeps to its rows of the tables. -/
theorem exec_endsAsTabled (i : Instr) (s : State) : EndsAsTabled i s (exec i s) := by
  have start : ChangesAsTabled i s s := .refl i s
  cases i with
  | nop => exact start
  | di | ei => exact start.withIme _
  | halt => exact { start with halted := fun hne => absurd rfl hne }
  | stop | undefined => exact trivial
  | prefixCb op2 => exact execPrefixCb_endsAsTabled op2 s
  | addA x | adcA x | subA x | sbcA x | andA x | xorA x | orA x =>
    exact start.aluToA _ x (List.Subset.refl _) (List.Subset.refl _)
  | cpA x => exact (start.readSrc8 x).setFlags _ _ _ _ (List.Subset.refl _)
  | inc8 x | dec8 x => exact (start.modifyLoc8 x _ (List.Subset.refl _)).setFlags _ _ _ _ (List.Subset.refl _)
  | daa | cpl => exact (start.setR8 _ (by decide) (List.Subset.refl _)).setFlags _ _ _ _ (List.Subset.refl _)
  | scf | ccf => exact start.setFlags _ _ _ _ (List.Subset.refl _)
  | addHl | ldHlSp => exact (start.setRegPair .hl _ (List.Subset.refl _) nofun).setFlags _ _ _ _ (List.Subset.refl _)
  | addSp => exact (start.setSp _ rfl).setFlags _ _ _ _ (List.Subset.refl _)
  | inc16 rr | dec16 rr | ldRrD16 rr => exact start.setRegPair rr _ (List.Subset.refl _) (by rintro rfl; rfl)
  | ldSpHl => exact start.setSp _ rfl
  | jp | jpHl | jr => exact start.setPc _ rfl
  | rlca | rrca | rla | rra => exact start.rotateA _ (List.Subset.refl _) (List.Subset.refl _)
  | rlc x | rrc x | rl x | rr x | sla x | sra x | swap x | srl x =>
    exact start.rotateLoc _ x (List.Subset.refl _) (List.Subset.refl _)
  | bit b x => exact (start.readLoc8 x).setFlags _ _ _ _ (List.Subset.refl _)
  | res b x | setBit b x => exact start.modifyLoc8 x _ (List.Subset.refl _)
  | jpCc | jrCc => exact (start.setPc _ rfl).ite start _
  | call | rst => exact start.callTo _ rfl rfl
  | callCc cc a16 => exact (start.callTo a16 rfl rfl).ite start _
  | ret => exact start.returnFromStack rfl rfl
  | retCc cc => exact (start.returnFromStack rfl rfl).ite start _
  | reti => exact (start.returnFromStack rfl rfl).withIme true
  | ldRR | ldRD8 => exact start.setR8 _ (State.regOf_ne_f _) (List.Subset.refl _)
  | ldRHl => exact start.loadR8 _ (State.regOf_ne_f _) (List.Subset.refl _)
  | ldABc | ldADe | ldAA16 | ldhAC | ldhAA8 => exact start.loadR8 _ (by decide) (List.Subset.refl _)
  | ldHlR | ldHlD8 | ldBcA | ldDeA | ldA16A | ldhCA | ldhA8A => exact start.memWrite8 _ _
  | ldHliA | ldHldA => exact (start.memWrite8 _ _).setRegPair .hl _ (List.Subset.refl _) nofun
  | ldAHli | ldAHld =>
    exact (start.loadR8 _ (by decide) (by decide)).setRegPair .hl _ (by decide) nofun
  | ldA16Sp a16 => exact start.memWrite16 a16 _
  | push qq => exact start.push16 _ rfl
  | pop qq => exact (start.pop16 rfl).setStackPair qq _ (List.Subset.refl _) (by rintro rfl; exact List.Subset.refl _)

/-- R30 to R32, R34, R39: an instruction that completes changes what the tables say. -/
theorem exec_changesAsTabled {i : Instr} {s t : State} (h : exec i s = .next t) : ChangesAsTabled i s t := by
  have ends := exec_endsAsTabled i s
  rwa [h] at ends

/-- Settles O19, by the frame of each instruction. -/
theorem flagsChangeOnlyAsTabled : Obligations.FlagsChangeOnlyAsTabled :=
  fun _ _ _ hexec => (exec_changesAsTabled hexec).flags

/-- Settles O20, by the frame of each instruction. -/
theorem registersChangeOnlyAsTabled : Obligations.RegistersChangeOnlyAsTabled := by
  intro i s t hexec
  have changes := exec_changesAsTabled hexec
  exact ⟨changes.regs, changes.sp, changes.pc⟩

/-- Settles O21: HALT sets `halted`, and every other instruction leaves it. -/
theorem onlyHaltEntersHalted : Obligations.OnlyHaltEntersHalted := by
  intro i s t hexec
  by_cases hi : i = .halt
  · subst hi
    obtain rfl : { s with halted := true } = t := by simpa [exec, execHalt] using hexec
    simp
  · simp [(exec_changesAsTabled hexec).halted hi, hi]

/-! ## IME -/

/-- R33: IME after an instruction, when it was `b` before. -/
def imeAfter : Instr → Bool → Bool
  | .di, _ => false
  | .ei, _ | .reti, _ => true
  | _, b => b

theorem imeAfter_eq (i : Instr) (b : Bool) :
    imeAfter i b = if i = .di then false else if i = .ei ∨ i = .reti then true else b := by
  cases i <;> simp [imeAfter]

/-- A result with its next state, if it is one, taken through `f`. -/
def mapNext (f : State → State) : Result → Result
  | .next t => .next (f t)
  | .fault r => .fault r
  | .refused r => .refused r

theorem execBit_withIme (k : BitVec 3) (x : Loc8) (s : State) (b : Bool) :
    execBit k x (s.withIme b) = mapNext (fun t => t.withIme b) (execBit k x s) := by
  simp only [execBit_eq, mapNext, State.withIme_locReads, State.withIme_locValue, State.withIme_logs,
    State.withIme_setFlags]

theorem execRes_withIme (k : BitVec 3) (x : Loc8) (s : State) (b : Bool) :
    execRes k x (s.withIme b) = mapNext (fun t => t.withIme b) (execRes k x s) := by
  simp only [execRes_eq, mapNext, State.withIme_locValue, State.withIme_modifyLoc8]

theorem execSetBit_withIme (k : BitVec 3) (x : Loc8) (s : State) (b : Bool) :
    execSetBit k x (s.withIme b) = mapNext (fun t => t.withIme b) (execSetBit k x s) := by
  simp only [execSetBit_eq, mapNext, State.withIme_locValue, State.withIme_modifyLoc8]

/-- R33, R287: whatever IME is, a CB-space instruction does the same. -/
theorem execPrefixCb_withIme (op2 : Byte) (s : State) (b : Bool) :
    execPrefixCb op2 (s.withIme b) = mapNext (fun t => t.withIme b) (execPrefixCb op2 s) := by
  unfold execPrefixCb
  dsimp only
  split
  · split <;> exact congrArg Host.Outcome.next (s.withIme_rotateLoc b _ _)
  · exact execBit_withIme _ _ s b
  · exact execRes_withIme _ _ s b
  · exact execSetBit_withIme _ _ s b

/-- R33: whatever IME is, an instruction does the same, but for the IME it leaves. -/
theorem exec_withIme (i : Instr) (s : State) (b : Bool) :
    exec i (s.withIme b) = mapNext (fun t => t.withIme (imeAfter i b)) (exec i s) := by
  cases i with
  | nop | di | ei | halt | stop | undefined => rfl
  | prefixCb op2 => exact execPrefixCb_withIme op2 s b
  | addA x | adcA x | subA x | sbcA x | andA x | xorA x | orA x =>
    exact congrArg Host.Outcome.next (s.withIme_aluToA b _ x)
  | cpA x =>
    simp only [exec, execCpA_eq, mapNext, imeAfter, State.withIme_srcReads, State.withIme_srcValue]
    rfl
  | inc8 x | dec8 x =>
    simp only [exec, execInc8_eq, execDec8_eq, mapNext, imeAfter, State.withIme_modifyLoc8, State.withIme_locValue,
      State.withIme_setFlags]
  | daa | cpl | scf | ccf => rfl
  | addHl rr | inc16 rr | dec16 rr => cases rr <;> rfl
  | addSp | ldHlSp => rfl
  | rlca | rrca | rla | rra => rfl
  | rlc x | rrc x | rl x | rr x | sla x | sra x | swap x | srl x =>
    exact congrArg Host.Outcome.next (s.withIme_rotateLoc b _ x)
  | bit k x => exact execBit_withIme k x s b
  | res k x => exact execRes_withIme k x s b
  | setBit k x => exact execSetBit_withIme k x s b
  | jp | jpHl | jr | call | ret | reti | rst => rfl
  | jpCc cc a16 => exact congrArg Host.Outcome.next (s.withIme_ite_cond b cc (s.setR16 .pc a16) s)
  | jrCc cc e => exact congrArg Host.Outcome.next (s.withIme_ite_cond b cc (s.jumpRel e) s)
  | callCc cc a16 => exact congrArg Host.Outcome.next (s.withIme_ite_cond b cc (s.callTo a16) s)
  | retCc cc => exact congrArg Host.Outcome.next (s.withIme_ite_cond b cc s.returnFromStack s)
  | ldRR dst src => simp only [exec, execLdRR, mapNext, imeAfter, State.withIme_r8, State.withIme_setR8]
  | ldRD8 r d8 => exact congrArg Host.Outcome.next (s.withIme_setR8 b _ d8)
  | ldRHl r => exact congrArg Host.Outcome.next (s.withIme_loadR8 b _ _)
  | ldHlR r =>
    simp only [exec, execLdHlR, mapNext, imeAfter, State.withIme_r8, State.withIme_r16, State.withIme_memWrite8]
  | ldABc | ldADe | ldAA16 | ldhAC | ldhAA8 => rfl
  | ldHlD8 | ldBcA | ldDeA | ldA16A | ldhCA | ldhA8A => rfl
  | ldHliA | ldHldA | ldAHli | ldAHld => rfl
  | ldRrD16 rr d16 => exact congrArg Host.Outcome.next (s.withIme_setR16 b _ d16)
  | ldA16Sp | ldSpHl => rfl
  | push qq | pop qq => cases qq <;> rfl

/-- R33: the IME that an instruction leaves. -/
theorem exec_ime {i : Instr} {s t : State} (h : exec i s = .next t) : t.ime = imeAfter i s.ime := by
  have same := exec_withIme i s s.ime
  rw [State.withIme_self, h] at same
  injection same with ht
  exact congrArg State.ime ht

/-- Settles O22: an instruction commutes with a change of IME, which gives its independence of IME and the IME it leaves;
the ports of each event are those of the state after it. -/
theorem imeIsWrittenByThreeAndReadByNone : Obligations.ImeIsWrittenByThreeAndReadByNone := by
  refine ⟨fun i s t hexec => ?_, fun i s t ime hexec => ?_, fun i s ime r hexec => ?_, fun s => ?_, fun event s => ?_⟩
  · rw [exec_ime hexec, imeAfter_eq]
  · refine ⟨t.withIme (imeAfter i ime), ?_, rfl⟩
    exact (exec_withIme i s ime).trans (by rw [hexec]; rfl)
  · exact (exec_withIme i s ime).trans (by rw [hexec]; rfl)
  · simp only [environment, State.applyReset, State.resetFor]
    split <;> rfl
  · obtain ⟨done, fault, hports⟩ := environment_ports event s
    rw [hports]
    rfl

end Sys2Proof.Machine

namespace Sys2Proof.Machine

/-! ## What the bus accesses do to data memory (R53 to R57, R65) -/

/-- R65: the latest write of two runs of accesses, one after the other. -/
theorem latestWrite_append (addr : Word) (v : Byte) (accesses later : List BusAccess) :
    latestWrite addr v (accesses ++ later) = latestWrite addr (latestWrite addr v accesses) later := by
  induction accesses generalizing v with
  | nil => rfl
  | cons access rest ih => cases access <;> exact ih _

/-- R61, R65: `t` holds in canonical form what `s` held, changed by the writes on the bus of `t`. -/
structure MemoryFollowsBus (s t : State) : Prop where
  wf : t.mem.wf = true
  peek : ∀ addr, t.peek addr = latestWrite addr (s.peek addr) t.bus

/-- A byte write is one access, which changes the byte it names. -/
theorem MemoryFollowsBus.memWrite8 {s t : State} (h : MemoryFollowsBus s t) (addr : Word) (v : Byte) :
    MemoryFollowsBus s (t.memWrite8 addr v) where
  wf := t.memWrite8_wf addr v h.wf
  peek other := by
    rw [State.memWrite8_bus, latestWrite_append, ← h.peek other]
    by_cases hother : addr = other
    · subst hother
      simpa [latestWrite] using t.memWrite8_peek_same addr v h.wf
    · simpa [latestWrite, hother] using t.memWrite8_peek_ne addr other v (Ne.symm hother)

/-- Each primitive operation changes data memory by the writes it puts on the bus. -/
theorem StateOp.keeps_memoryFollowsBus {s t u : State} (op : StateOp t u) (h : MemoryFollowsBus s t) :
    MemoryFollowsBus s u := by
  cases op with
  | setR8 | setR16 => exact ⟨by simpa using h.wf, by simpa using h.peek⟩
  | setIme | halt => exact ⟨h.wf, h.peek⟩
  | read | ifetch => exact ⟨h.wf, by simpa [latestWrite_append, latestWrite] using h.peek⟩
  | write addr v => exact h.memWrite8 addr v

/-- R61, R65: so does every sequence of primitive operations. -/
theorem StateOps.keeps_memoryFollowsBus {s t u : State} (ops : StateOps t u) (h : MemoryFollowsBus s t) :
    MemoryFollowsBus s u := by
  induction ops with
  | refl => exact h
  | tail _ op ih => exact op.keeps_memoryFollowsBus ih

/-- Settles O16: a step begins with an empty bus, and each primitive operation changes memory by the write it puts
there. -/
theorem memoryChangesExactlyByBusWrites : Obligations.MemoryChangesExactlyByBusWrites := by
  intro s t hwf hstep
  have begins : MemoryFollowsBus s s.beginStep := ⟨hwf, fun _ => rfl⟩
  exact ((step_stateOps hstep).keeps_memoryFollowsBus begins).peek

/-- R52, R68: with FetchSpace `unified` the instruction-stream port reads data memory. -/
theorem State.ipeek_unified {s : State} (h : s.config.fetchSpace = .unified) (addr : Word) :
    s.ipeek addr = s.peek addr := by
  simp [ipeek, peek, h]

/-- Settles O15: under `unified` a fetch reads data memory, which holds the latest writes. -/
theorem storesAreSeenByTheNextFetch : Obligations.StoresAreSeenByTheNextFetch := by
  intro s t hwf hunified hstep addr
  obtain ⟨hconfig, -⟩ : t.config = s.config ∧ t.imem = s.imem := (step_stateOps hstep).keeps_config_imem
  rw [State.ipeek_unified hunified, State.ipeek_unified (hconfig ▸ hunified)]
  exact memoryChangesExactlyByBusWrites s t hwf hstep addr

/-- R55 to R57: a word read after the word write gives the word. -/
theorem State.memRead16_memWrite16 (s : State) (addr v : Word) (hwf : s.mem.wf = true) :
    ((s.memWrite16 addr v).memRead16 addr).1 = v := by
  rw [memRead16_eq, s.memWrite16_peek_low addr v hwf, s.memWrite16_peek_high addr v hwf, cat_bytes]

/-- Settles O28: the two bytes of a word stand at two different addresses. -/
theorem wordAccessIsLittleEndian : Obligations.WordAccessIsLittleEndian := by
  intro s addr v hwf
  refine ⟨s.memWrite16_peek_low addr v hwf, s.memWrite16_peek_high addr v hwf, s.memWrite16_peek_ne addr v,
    s.memWrite16_bus addr v, s.memRead16_memWrite16 addr v hwf, ?_⟩
  rw [State.memRead16_eq]
  rfl

end Sys2Proof.Machine

namespace Sys2Proof

open Machine (decodeBytes_failing)

/-! ## The decoder on an encoding (R81, R82, R98 to R103) -/

/-- R102: the CB table is asked for the byte after 0xCB. -/
theorem decode_encodeCb (x : BitVec 2) (y : BitVec 3) (o : Loc8) (rest : List Byte) :
    decode (encodeCb x y o ++ rest) = .ok (decodeCb (xyz x y o.code), rest) := rfl

/-- R94, R100, R101: the ALU instruction of an operand of either kind. -/
theorem decode_encodeAlu (y : BitVec 3) (x : Src8) (rest : List Byte) :
    decode (encodeAlu y x ++ rest) = .ok (aluOf y x, rest) := by
  have hloc : ∀ y z : BitVec 3, xyz 2#2 y z ≠ 0xCB#8 ∧ bytesAfter (xyz 2#2 y z) = 0 := by decide
  have himm : ∀ y : BitVec 3, xyz 3#2 y 6#3 ≠ 0xCB#8 ∧ bytesAfter (xyz 3#2 y 6#3) = 1 := by decide
  cases x with
  | loc o =>
    obtain ⟨hcb, hafter⟩ := hloc y o.code
    simp [encodeAlu, decode, hafter, decodeBytes, hcb, decodeUnprefixed]
  | imm d8 =>
    obtain ⟨hcb, hafter⟩ := himm y
    simp [encodeAlu, decode, hafter, decodeBytes, hcb, decodeUnprefixed, decodeX3]

/-- R101: RST. -/
theorem decode_encode_rst (y : BitVec 3) (rest : List Byte) :
    decode (encode (.rst y) ++ rest) = .ok (.rst y, rest) := by
  have hrst : ∀ y : BitVec 3, xyz 3#2 y 7#3 ≠ 0xCB#8 ∧ bytesAfter (xyz 3#2 y 7#3) = 0 := by decide
  obtain ⟨hcb, hafter⟩ := hrst y
  simp [encode, decode, hafter, decodeBytes, hcb, decodeUnprefixed, decodeX3]

/-- R103: an undefined byte stands for itself. -/
theorem decode_encode_undefined {op : Byte} (h : (Instr.undefined op).wellFormed = true) (rest : List Byte) :
    decode (encode (.undefined op) ++ rest) = .ok (.undefined op, rest) := by
  have hmem : op ∈ undefinedBytes := by simpa [Instr.wellFormed] using h
  have hstop : op ≠ 0x10#8 := by rintro rfl; exact absurd hmem (by decide)
  have hafter : bytesAfter op = 0 := by simpa [encode] using Laws.EncodeLength.undefined op h
  have hop := decodeBytes_failing (List.mem_cons_of_mem 0x10#8 hmem) 0#8 0#8
  simp [encode, decode, hafter, hop, hstop]

/-- The decoder's answer on a word operand: its two bytes make the word again (R87). -/
theorem ok_imm16 (f : Word → Instr) (w : Word) (rest : List Byte) :
    (.ok (f (imm16 (immLo w) (immHi w)), rest) : Except DecodeError (Instr × List Byte)) = .ok (f w, rest) := by
  rw [imm16_bytes]

/-- R81, R82, R98 to R103: the decoder gives a well-formed instruction back from its encoding, and what follows it. -/
theorem decode_encode_append (i : Instr) (hwf : i.wellFormed = true) (rest : List Byte) :
    decode (encode i ++ rest) = .ok (i, rest) := by
  cases i with
  | prefixCb op2 => exact absurd hwf Bool.false_ne_true
  | undefined op => exact decode_encode_undefined hwf rest
  | addA x | adcA x | subA x | sbcA x | andA x | xorA x | orA x | cpA x => exact decode_encodeAlu _ x rest
  | rlc x | rrc x | rl x | rr x | sla x | sra x | swap x | srl x =>
    exact (decode_encodeCb _ _ x rest).trans (by simp [decodeCb, rotOf])
  | bit b x | res b x | setBit b x => exact (decode_encodeCb _ b x rest).trans (by simp [decodeCb])
  | rst y => exact decode_encode_rst y rest
  | inc8 x | dec8 x => rcases x with (_ | _ | _ | _ | _ | _ | _) | _ <;> rfl
  | ldRR dst src => cases dst <;> cases src <;> rfl
  | ldRD8 r | ldRHl r | ldHlR r => cases r <;> rfl
  | addHl rr | inc16 rr | dec16 rr => cases rr <;> rfl
  | push qq | pop qq => cases qq <;> rfl
  | jrCc cc | retCc cc => cases cc <;> rfl
  | jp a16 => exact ok_imm16 .jp a16 rest
  | call a16 => exact ok_imm16 .call a16 rest
  | ldAA16 a16 => exact ok_imm16 .ldAA16 a16 rest
  | ldA16A a16 => exact ok_imm16 .ldA16A a16 rest
  | ldA16Sp a16 => exact ok_imm16 .ldA16Sp a16 rest
  | jpCc cc a16 => cases cc <;> exact ok_imm16 (.jpCc _) a16 rest
  | callCc cc a16 => cases cc <;> exact ok_imm16 (.callCc _) a16 rest
  | ldRrD16 rr d16 => cases rr <;> exact ok_imm16 (.ldRrD16 _) d16 rest
  | nop | di | ei | halt | stop | daa | cpl | scf | ccf | rlca | rrca | rla | rra | jpHl | ret | reti | ldSpHl => rfl
  | addSp | ldHlSp | jr | ldHlD8 | ldhAA8 | ldhA8A => rfl
  | ldABc | ldADe | ldBcA | ldDeA | ldhAC | ldhCA | ldHliA | ldAHli | ldHldA | ldAHld => rfl

end Sys2Proof

namespace Sys2Proof.Machine

/-- R281: what fetching the bytes of an instruction gives: the instruction, with PC past it and its bytes read. -/
theorem State.fetchInstr_of_decode {i : Instr} {s : State} {bytes : List Byte} (hdecode : decode bytes = .ok (i, []))
    (hbytes : s.fetchesBytes s.pc bytes) :
    s.fetchInstr = (i, { s with pc := s.pc + BitVec.ofNat 16 bytes.length }.logs (s.fetches bytes.length s.pc)) := by
  rw [s.fetchInstr_eq]
  cases bytes with
  | nil => cases hdecode
  | cons b0 rest =>
    obtain ⟨h0, hrest⟩ := hbytes
    simp only [decode] at hdecode
    split at hdecode
    next tail _ _ hafter =>
      obtain ⟨hi, rfl⟩ : _ ∧ tail = [] := by simpa using hdecode
      simp [h0, hafter, hi]
    next b1 tail hafter =>
      obtain ⟨h1, -⟩ := hrest
      obtain ⟨hi, rfl⟩ : _ ∧ tail = [] := by simpa using hdecode
      simp [h0, h1, hafter, hi]
    next b1 b2 tail hafter =>
      obtain ⟨h1, h2, -⟩ := hrest
      obtain ⟨hi, rfl⟩ : _ ∧ tail = [] := by simpa using hdecode
      simp [h0, h1, h2, hafter, hi]
    next => cases hdecode

/-- R281: fetching from the encoding of an instruction gives the instruction. -/
theorem State.fetchInstr_encode {i : Instr} {s : State} (hwf : i.wellFormed = true)
    (hbytes : s.fetchesBytes s.pc (encode i)) :
    s.fetchInstr = (i, { s with pc := s.pc + BitVec.ofNat 16 (encode i).length }.logs
      (s.fetches (encode i).length s.pc)) :=
  State.fetchInstr_of_decode (by simpa using decode_encode_append i hwf []) hbytes

/-! ## The data accesses of an instruction (R53, R54, R59 to R61) -/

/-- From `s` to `t` the bus shows the data accesses `ds`, in order, each read of them answered by what `s` held. -/
def Accesses (s t : State) (ds : List DataAccess) : Prop :=
  ∃ accesses, t.bus = s.bus ++ accesses ∧ accesses.map BusAccess.toData = ds.map some ∧
    ∀ access ∈ accesses, access.answeredBy s

namespace Accesses

variable {s t u : State} {ds ds' : List DataAccess}

theorem quiet (h : t.bus = s.bus) : Accesses s t [] := ⟨[], by simp [h], rfl, by simp⟩

/-- One more data access. -/
theorem access {a : BusAccess} {d : DataAccess} (h : Accesses s t ds) (hbus : u.bus = t.bus ++ [a])
    (hdata : a.toData = some d) (hanswer : a.answeredBy s) : Accesses s u (ds ++ [d]) := by
  obtain ⟨accesses, ht, htable, hanswers⟩ := h
  refine ⟨accesses ++ [a], by simp [hbus, ht], by simp [htable, hdata], fun x hx => ?_⟩
  obtain hx | rfl : x ∈ accesses ∨ x = a := by simpa using hx
  · exact hanswers x hx
  · exact hanswer

/-- One read of data memory as `s` holds it. -/
theorem read {addr : Word} (h : Accesses s t ds) (hbus : u.bus = t.bus ++ [.read addr (s.peek addr)]) :
    Accesses s u (ds ++ [.rd addr]) := h.access hbus rfl rfl

theorem write {addr : Word} {v : Byte} (h : Accesses s t ds) (hbus : u.bus = t.bus ++ [.write addr v]) :
    Accesses s u (ds ++ [.wr addr]) := h.access hbus rfl trivial

/-- What makes no access leaves the accesses. -/
theorem keep (h : Accesses s t ds) (hbus : u.bus = t.bus) : Accesses s u ds := by
  obtain ⟨accesses, ht, hrest⟩ := h
  exact ⟨accesses, hbus.trans ht, hrest⟩

theorem ite (h : Accesses s t ds) (hu : Accesses s u ds') (c : Prop) [Decidable c] :
    Accesses s (if c then t else u) (if c then ds else ds') := by
  split
  · exact h
  · exact hu

theorem refl (s : State) : Accesses s s [] := .quiet rfl

theorem memRead8 (s : State) (addr : Word) : Accesses s (s.memRead8 addr).2 [.rd addr] := (refl s).read rfl

theorem readLoc8 (s : State) (x : Loc8) : Accesses s (s.readLoc8 x).2 (locRd s x) := by
  cases x with
  | reg r => exact .refl s
  | indHl => exact .memRead8 s _

theorem readSrc8 (s : State) (x : Src8) : Accesses s (s.readSrc8 x).2 (srcRd s x) := by
  cases x with
  | loc x => exact .readLoc8 s x
  | imm d8 => exact .refl s

/-- R188: an 8-bit operand is read and written back. -/
theorem modifyLoc8 (s : State) (x : Loc8) (v : Byte) :
    Accesses s ((s.readLoc8 x).2.writeLoc8 x v) (locRdWr s x) := by
  cases x with
  | reg r => exact .quiet (s.setR8_bus _ v)
  | indHl => exact (memRead8 s (s.r16 .hl)).write rfl

theorem aluToA (s : State) (op : Byte → Byte → AluResult) (x : Src8) : Accesses s (s.aluToA op x) (srcRd s x) :=
  (readSrc8 s x).keep rfl

theorem rotateLoc (s : State) (op : Byte → Byte × Bool) (x : Loc8) : Accesses s (s.rotateLoc op x) (locRdWr s x) :=
  (modifyLoc8 s x _).keep rfl

theorem loadR8 (s : State) (x : R8) (addr : Word) : Accesses s (s.loadR8 x addr) [.rd addr] :=
  (memRead8 s addr).keep (State.setR8_bus _ x _)

theorem memWrite8 (s : State) (addr : Word) (v : Byte) : Accesses s (s.memWrite8 addr v) [.wr addr] :=
  (refl s).write rfl

theorem memWrite16 (s : State) (addr v : Word) : Accesses s (s.memWrite16 addr v) [.wr addr, .wr (addr + 1#16)] :=
  (memWrite8 s addr (loByte v)).write rfl

/-- R270: the low byte to the new SP, then the high byte to the next address. -/
theorem push16 (s : State) (v : Word) : Accesses s (s.push16 v) (pushWr s) := by
  rw [pushWr, ← State.sp_sub_two]
  exact ((refl s).write rfl).write rfl

/-- R271: the low byte from SP, then the high byte from the next address. -/
theorem pop16 (s : State) : Accesses s s.pop16.2 (popRd s) := (memRead8 s s.sp).read rfl

theorem returnFromStack (s : State) : Accesses s s.returnFromStack (popRd s) := (pop16 s).keep rfl

theorem callTo (s : State) (target : Word) : Accesses s (s.callTo target) (pushWr s) := (push16 s _).keep rfl

end Accesses

/-- A result whose next state, if it is one, comes from `s` with the data accesses `ds` on the bus. -/
def EndsWithAccesses (s : State) (ds : List DataAccess) : Result → Prop
  | .next t => Accesses s t ds
  | .fault _ => True
  | .refused _ => True

/-- R102: the data accesses of a CB-space instruction, by its field x. -/
theorem execPrefixCb_endsWithAccesses (op2 : Byte) (s : State) :
    EndsWithAccesses s (dataAccesses (.prefixCb op2) s) (execPrefixCb op2 s) := by
  have hbit (h : (opX op2).toNat = 1) : dataAccesses (.prefixCb op2) s = locRd s (loc8Of (opZ op2)) :=
    if_pos (BitVec.eq_of_toNat_eq h)
  have hmodify (h : (opX op2).toNat ≠ 1) : dataAccesses (.prefixCb op2) s = locRdWr s (loc8Of (opZ op2)) :=
    if_neg fun e => h (congrArg BitVec.toNat e)
  unfold execPrefixCb
  dsimp only
  split
  next h0 =>
    rw [hmodify (by simp [h0])]
    split <;> exact .rotateLoc s _ _
  next h1 =>
    rw [hbit h1]
    exact (Accesses.readLoc8 s _).keep rfl
  next h2 =>
    rw [hmodify (by simp [h2])]
    exact .modifyLoc8 s _ _
  next _ h1 _ =>
    rw [hmodify h1]
    exact .modifyLoc8 s _ _

/-- R59: every instruction makes the data accesses that the table gives it. -/
theorem exec_endsWithAccesses (i : Instr) (s : State) : EndsWithAccesses s (dataAccesses i s) (exec i s) := by
  cases i with
  | stop | undefined => exact trivial
  | nop | di | ei | halt | daa | cpl | scf | ccf | addSp | rlca | rrca | rla | rra => exact .quiet rfl
  | addHl | ldHlSp | inc16 | dec16 | ldRrD16 | ldSpHl | jp | jpHl | jr => exact .quiet (s.setR16_bus _ _)
  | jpCc | jrCc => exact .quiet (by split <;> rfl)
  | ldRR | ldRD8 => exact .quiet (s.setR8_bus _ _)
  | prefixCb op2 => exact execPrefixCb_endsWithAccesses op2 s
  | addA x | adcA x | subA x | sbcA x | andA x | xorA x | orA x => exact .aluToA s _ x
  | cpA x => exact (Accesses.readSrc8 s x).keep rfl
  | bit b x => exact (Accesses.readLoc8 s x).keep rfl
  | inc8 x | dec8 x => exact (Accesses.modifyLoc8 s x _).keep rfl
  | rlc x | rrc x | rl x | rr x | sla x | sra x | swap x | srl x => exact .rotateLoc s _ x
  | res b x | setBit b x => exact .modifyLoc8 s x _
  | ldRHl | ldABc | ldADe | ldAA16 | ldhAC | ldhAA8 => exact .loadR8 s _ _
  | ldAHli | ldAHld => exact (Accesses.loadR8 s .a _).keep rfl
  | ldHlR | ldHlD8 | ldBcA | ldDeA | ldA16A | ldhCA | ldhA8A => exact .memWrite8 s _ _
  | ldHliA | ldHldA => exact (Accesses.memWrite8 s _ _).keep rfl
  | ldA16Sp a16 => exact .memWrite16 s a16 _
  | push qq => exact .push16 s _
  | pop qq => exact (Accesses.pop16 s).keep (State.setR16_bus _ _ _)
  | call | rst => exact .callTo s _
  | callCc cc a16 => exact (Accesses.callTo s a16).ite (.refl s) _
  | ret => exact .returnFromStack s
  | retCc cc => exact (Accesses.returnFromStack s).ite (.refl s) _
  | reti => exact (Accesses.returnFromStack s).keep rfl

/-- R59: an instruction that completes has made the data accesses of the table. -/
theorem exec_accesses {i : Instr} {s t : State} (h : exec i s = .next t) : Accesses s t (dataAccesses i s) := by
  have ends := exec_endsWithAccesses i s
  rwa [h] at ends

/-! ## The bus of a step (R59 to R61) -/

/-- The state with PC and the bus as given: what fetching an instruction changes. -/
def State.withPcBus (s : State) (pc : Word) (bus : List BusAccess) : State := { s with pc := pc, bus := bus }

/-- R281: fetching an instruction changes PC and the bus alone. -/
theorem State.fetchInstr_withPcBus (s : State) : ∃ pc bus, s.beginStep.fetchInstr.2 = s.withPcBus pc bus :=
  ⟨_, _, congrArg Prod.snd s.beginStep.fetchInstr_eq⟩

/-- R59: no row of the table of data accesses looks at PC or at the bus. -/
theorem dataAccesses_withPcBus (i : Instr) (s : State) (pc : Word) (bus : List BusAccess) :
    dataAccesses i (s.withPcBus pc bus) = dataAccesses i s := by
  cases i <;> rfl

/-- R52, R53: neither port looks at PC or at the bus. -/
theorem BusAccess.answeredBy_withPcBus (access : BusAccess) (s : State) (pc : Word) (bus : List BusAccess) :
    access.answeredBy (s.withPcBus pc bus) ↔ access.answeredBy s := by
  cases access <;> rfl

/-- R60: the bus after a step of a running core: what fetching put there, then the data accesses of the instruction. -/
theorem step_bus {s t : State} (hrun : s.halted = false) (hstep : step s = .next t) :
    ∃ accesses, t.bus = s.beginStep.fetchInstr.2.bus ++ accesses ∧
      accesses.map BusAccess.toData = (dataAccesses s.beginStep.fetchInstr.1 s).map some ∧
      ∀ access ∈ accesses, access.answeredBy s := by
  obtain ⟨accesses, hbus, hdata, hanswers⟩ := exec_accesses (step_running s hrun ▸ hstep)
  obtain ⟨pc, bus, hfetched⟩ := s.fetchInstr_withPcBus
  refine ⟨accesses, hbus, ?_, fun access hmem => ?_⟩
  · rw [hdata, hfetched, dataAccesses_withPcBus]
  · have hanswer := hanswers access hmem
    rwa [hfetched, BusAccess.answeredBy_withPcBus] at hanswer

/-- R60: the reads of the bytes at an address do not depend on what the bus showed before. -/
theorem State.beginStep_fetches (s : State) (n : Nat) (addr : Word) :
    s.beginStep.fetches n addr = s.fetches n addr := by
  induction n generalizing addr with
  | zero => rfl
  | succ n ih => exact congrArg _ (ih _)

/-- R52: the bytes that the next step fetches do not depend on the bus. -/
theorem State.beginStep_fetchesBytes {s : State} {addr : Word} {bytes : List Byte} (h : s.fetchesBytes addr bytes) :
    s.beginStep.fetchesBytes addr bytes := by
  induction bytes generalizing addr with
  | nil => exact trivial
  | cons b rest ih =>
    obtain ⟨hb, hrest⟩ := h
    exact ⟨hb, ih hrest⟩

/-- Settles O18: an encoding is fetched as its instruction, whose data accesses come after the fetches. -/
theorem busTraceIsFetchesThenTabledAccesses : Obligations.BusTraceIsFetchesThenTabledAccesses := by
  intro i s t hrun hwf hbytes hstep
  have hfetch := State.fetchInstr_encode hwf (State.beginStep_fetchesBytes hbytes)
  obtain ⟨accesses, hbus, hdata, -⟩ := step_bus hrun hstep
  rw [hfetch] at hbus hdata
  exact ⟨accesses, by simpa [State.beginStep_fetches] using hbus, hdata⟩

/-- R52: every instruction-stream read is answered by what the instruction-stream port holds. -/
theorem State.fetches_answered (s : State) (n : Nat) (addr : Word) :
    ∀ access ∈ s.fetches n addr, access.answeredBy s := by
  induction n generalizing addr with
  | zero => simp [fetches]
  | succ n ih => simpa [fetches, BusAccess.answeredBy] using ih _

/-- Settles O17: a halted core makes no access; a running one makes its fetches and then its data accesses, all of whose
reads come before its writes. -/
theorem busReadsAnswerWhatMemoryHeld : Obligations.BusReadsAnswerWhatMemoryHeld := by
  intro s t hstep access hmem
  cases hhalted : s.halted with
  | true =>
    obtain rfl : s.beginStep = t := by simpa [step_halted s hhalted] using hstep
    simp at hmem
  | false =>
    obtain ⟨accesses, hbus, -, hanswers⟩ := step_bus hhalted hstep
    rw [hbus, State.fetchInstr_eq] at hmem
    simp only [State.logs_bus, State.beginStep_bus, State.beginStep_fetches, List.nil_append, List.mem_append] at hmem
    obtain hfetch | hdata := hmem
    · exact s.fetches_answered _ _ access hfetch
    · exact hanswers access hdata

end Sys2Proof.Machine

namespace Sys2Proof

open Machine

/-! ## The encoder on what the decoder gives (R81, R82, R98 to R103)

`decode` and `encode` meet in one fact about the opcode map: the entry of a first byte, with the bytes after it, is
well-formed and is encoded as that byte and as many of the bytes after it as R82 says. -/

/-- The instruction `i` stands in the opcode map for the byte `op` and those of the bytes after it that it has. -/
structure EncodesAs (i : Instr) (op b1 b2 : Byte) : Prop where
  wellFormed : i.wellFormed = true
  bytes : encode i = op :: [b1, b2].take (bytesAfter op)

namespace EncodesAs

variable {i : Instr} {op b1 b2 : Byte}

/-- R82: an entry of one byte. -/
theorem alone (hafter : bytesAfter op = 0) (hwf : i.wellFormed = true) (hbytes : encode i = [op]) :
    EncodesAs i op b1 b2 := ⟨hwf, by simp [hbytes, hafter]⟩

/-- R82, R87: an entry with a word operand, which is the two bytes after the first. -/
theorem word {f : Word → Instr} (hafter : bytesAfter op = 2) (hwf : ∀ w, (f w).wellFormed = true)
    (hbytes : ∀ w, encode (f w) = [op, immLo w, immHi w]) : EncodesAs (f (imm16 b1 b2)) op b1 b2 :=
  ⟨hwf _, by simp [hbytes, hafter]⟩

/-- R82: the entry's encoding and what follows it, when the first byte has `n` bytes after it. -/
theorem append {n : Nat} (h : EncodesAs i op b1 b2) (hafter : bytesAfter op = n) (rest : List Byte) :
    i.wellFormed = true ∧ encode i ++ rest = op :: ([b1, b2].take n ++ rest) :=
  ⟨h.wellFormed, by rw [h.bytes, hafter, List.cons_append]⟩

/-- R102: a CB-space entry. -/
theorem cb {x : BitVec 2} {y z : BitVec 3} (hwf : i.wellFormed = true) (hbytes : encode i = encodeCb x y (loc8Of z)) :
    EncodesAs i 0xCB#8 (xyz x y z) b2 :=
  ⟨hwf, by rw [hbytes, encodeCb, code_loc8Of]; rfl⟩

end EncodesAs

/-- R81: a byte, by the value of its field x. -/
theorem byte_cases {motive : Byte → Prop} (x0 : ∀ y z, motive (xyz 0#2 y z)) (x1 : ∀ y z, motive (xyz 1#2 y z))
    (x2 : ∀ y z, motive (xyz 2#2 y z)) (x3 : ∀ y z, motive (xyz 3#2 y z)) (op : Byte) : motive op := by
  have hx : ∀ x : BitVec 2, x = 0#2 ∨ x = 1#2 ∨ x = 2#2 ∨ x = 3#2 := by decide
  rw [← xyz_fields op]
  rcases hx (opX op) with h | h | h | h <;> rw [h]
  · exact x0 _ _
  · exact x1 _ _
  · exact x2 _ _
  · exact x3 _ _

/-- The eight values of a field y or z, as the cases of a case split (R81). -/
theorem field_cases {motive : BitVec 3 → Prop} (v0 : motive 0#3) (v1 : motive 1#3) (v2 : motive 2#3) (v3 : motive 3#3)
    (v4 : motive 4#3) (v5 : motive 5#3) (v6 : motive 6#3) (v7 : motive 7#3) (y : BitVec 3) : motive y := by
  have hy : y = 0#3 ∨ y = 1#3 ∨ y = 2#3 ∨ y = 3#3 ∨ y = 4#3 ∨ y = 5#3 ∨ y = 6#3 ∨ y = 7#3 := by
    revert y; decide
  rcases hy with rfl | rfl | rfl | rfl | rfl | rfl | rfl | rfl <;> assumption

/-- R94, R100, R101: the operation that `aluOf` gives for a field is encoded with that field. -/
theorem encode_aluOf (y : BitVec 3) (x : Src8) : encode (aluOf y x) = encodeAlu y x := by
  cases y using field_cases <;> rfl

theorem aluOf_wellFormed (y : BitVec 3) (x : Src8) : (aluOf y x).wellFormed = true := by
  cases y using field_cases <;> rfl

/-- R95, R102: the rotate or shift that `rotOf` gives for a field is encoded with that field. -/
theorem encode_rotOf (y : BitVec 3) (x : Loc8) : encode (rotOf y x) = encodeCb 0#2 y x := by
  cases y using field_cases <;> rfl

theorem rotOf_wellFormed (y : BitVec 3) (x : Loc8) : (rotOf y x).wellFormed = true := by
  cases y using field_cases <;> rfl

/-- R98: each row z of x = 0. The entries with a word operand are `LD (a16),SP` and, for q = 0, `LD rr,d16`. -/
theorem decodeX0_encodesAs (y z : BitVec 3) (b1 b2 : Byte) :
    EncodesAs (decodeX0 (xyz 0#2 y z) b1 b2) (xyz 0#2 y z) b1 b2 := by
  cases z using field_cases with
  | v0 =>
    cases y using field_cases with
    | v1 => exact .word (f := .ldA16Sp) rfl (fun _ => rfl) fun _ => rfl
    | _ => exact ⟨rfl, rfl⟩
  | v1 =>
    cases y using field_cases with
    | v0 => exact .word (f := .ldRrD16 .bc) rfl (fun _ => rfl) fun _ => rfl
    | v2 => exact .word (f := .ldRrD16 .de) rfl (fun _ => rfl) fun _ => rfl
    | v4 => exact .word (f := .ldRrD16 .hl) rfl (fun _ => rfl) fun _ => rfl
    | v6 => exact .word (f := .ldRrD16 .sp) rfl (fun _ => rfl) fun _ => rfl
    | _ => exact ⟨rfl, rfl⟩
  | _ => cases y using field_cases <;> exact ⟨rfl, rfl⟩

/-- R99: the entries of x = 1 are of one byte, whose fields y and z are their operands. -/
theorem decodeX1_encodesAs (y z : BitVec 3) (b1 b2 : Byte) :
    EncodesAs (decodeX1 (xyz 1#2 y z)) (xyz 1#2 y z) b1 b2 := by
  have hrow : ∀ y z : BitVec 3, bytesAfter (xyz 1#2 y z) = 0 ∧ (decodeX1 (xyz 1#2 y z)).wellFormed = true ∧
      encode (decodeX1 (xyz 1#2 y z)) = [xyz 1#2 y z] := by decide
  obtain ⟨hafter, hwf, hbytes⟩ := hrow y z
  exact .alone hafter hwf hbytes

/-- R100: the entries of x = 2. -/
theorem decodeX2_encodesAs (y z : BitVec 3) (b1 b2 : Byte) :
    EncodesAs (aluOf y (.loc (loc8Of z))) (xyz 2#2 y z) b1 b2 := by
  have hafter : ∀ y z : BitVec 3, bytesAfter (xyz 2#2 y z) = 0 := by decide
  exact .alone (hafter y z) (aluOf_wellFormed y _) (by simp [encode_aluOf, encodeAlu])

/-- R101, R103: each row z of x = 3, but for 0xCB. The entries with a word operand are `JP` and `CALL`, with or without
a condition, and the two loads with `(a16)`. -/
theorem decodeX3_encodesAs (y z : BitVec 3) (b1 b2 : Byte) (hcb : xyz 3#2 y z ≠ 0xCB#8) :
    EncodesAs (decodeX3 (xyz 3#2 y z) b1 b2) (xyz 3#2 y z) b1 b2 := by
  cases z using field_cases with
  | v2 =>
    cases y using field_cases with
    | v0 => exact .word (f := .jpCc .nz) rfl (fun _ => rfl) fun _ => rfl
    | v1 => exact .word (f := .jpCc .z) rfl (fun _ => rfl) fun _ => rfl
    | v2 => exact .word (f := .jpCc .nc) rfl (fun _ => rfl) fun _ => rfl
    | v3 => exact .word (f := .jpCc .c) rfl (fun _ => rfl) fun _ => rfl
    | v5 => exact .word (f := .ldA16A) rfl (fun _ => rfl) fun _ => rfl
    | v7 => exact .word (f := .ldAA16) rfl (fun _ => rfl) fun _ => rfl
    | v4 | v6 => exact ⟨rfl, rfl⟩
  | v3 =>
    cases y using field_cases with
    | v0 => exact .word (f := .jp) rfl (fun _ => rfl) fun _ => rfl
    | v1 => exact absurd rfl hcb
    | _ => exact ⟨rfl, rfl⟩
  | v4 =>
    cases y using field_cases with
    | v0 => exact .word (f := .callCc .nz) rfl (fun _ => rfl) fun _ => rfl
    | v1 => exact .word (f := .callCc .z) rfl (fun _ => rfl) fun _ => rfl
    | v2 => exact .word (f := .callCc .nc) rfl (fun _ => rfl) fun _ => rfl
    | v3 => exact .word (f := .callCc .c) rfl (fun _ => rfl) fun _ => rfl
    | _ => exact ⟨rfl, rfl⟩
  | v5 =>
    cases y using field_cases with
    | v1 => exact .word (f := .call) rfl (fun _ => rfl) fun _ => rfl
    | _ => exact ⟨rfl, rfl⟩
  | _ => cases y using field_cases <;> exact ⟨rfl, rfl⟩

/-- R98 to R101, R103: every entry of the unprefixed table but PREFIX, by its field x. -/
theorem decodeUnprefixed_encodesAs {op : Byte} (hcb : op ≠ 0xCB#8) (b1 b2 : Byte) :
    EncodesAs (decodeUnprefixed op b1 b2) op b1 b2 := by
  unfold decodeUnprefixed
  cases op using byte_cases with
  | x0 y z => rw [opX_xyz]; exact decodeX0_encodesAs y z b1 b2
  | x1 y z => rw [opX_xyz]; exact decodeX1_encodesAs y z b1 b2
  | x2 y z => rw [opX_xyz, opY_xyz, opZ_xyz]; exact decodeX2_encodesAs y z b1 b2
  | x3 y z => rw [opX_xyz]; exact decodeX3_encodesAs y z b1 b2 hcb

/-- R102: the CB-space entry of a second byte is encoded as 0xCB and that byte. -/
theorem decodeCb_encodesAs (op2 b2 : Byte) : EncodesAs (decodeCb op2) 0xCB#8 op2 b2 := by
  unfold decodeCb
  cases op2 using byte_cases with
  | x0 y z => rw [opX_xyz, opY_xyz, opZ_xyz]; exact .cb (rotOf_wellFormed y _) (encode_rotOf y _)
  | x1 y z | x2 y z | x3 y z => rw [opX_xyz, opY_xyz, opZ_xyz]; exact .cb rfl rfl

/-- R281: what any three bytes decode to. -/
theorem decodeBytes_encodesAs (b0 b1 b2 : Byte) : EncodesAs (decodeBytes b0 b1 b2) b0 b1 b2 := by
  unfold decodeBytes
  split
  next hcb => exact hcb ▸ decodeCb_encodesAs b1 b2
  next hcb => exact decodeUnprefixed_encodesAs hcb b1 b2

/-- Settles O1, by the instruction: each field of its encoding is read back by its table. -/
theorem decodeOfEncodeIsTheInstruction : Obligations.DecodeOfEncodeIsTheInstruction :=
  fun i rest hwf => decode_encode_append i hwf rest

/-- Settles O2, by the number of bytes after the first. -/
theorem encodeOfDecodeIsTheBytes : Obligations.EncodeOfDecodeIsTheBytes := by
  intro bytes i rest hdecode
  cases bytes with
  | nil => cases hdecode
  | cons b0 tail =>
    simp only [decode] at hdecode
    split at hdecode
    next hafter =>
      cases hdecode
      exact (decodeBytes_encodesAs b0 0#8 0#8).append hafter rest
    next b1 _ hafter =>
      cases hdecode
      exact (decodeBytes_encodesAs b0 b1 0#8).append hafter rest
    next b1 b2 _ hafter =>
      cases hdecode
      exact (decodeBytes_encodesAs b0 b1 b2).append hafter rest
    next => cases hdecode

/-- Settles O3: a decode failure is encoded as one of the twelve bytes alone, and bytes decode to an instruction whose
encoding begins with the first of them. -/
theorem exactlyTwelveFirstBytesFailToDecode : Obligations.ExactlyTwelveFirstBytesFailToDecode := by
  intro b0 b1 b2
  obtain ⟨hwf, hbytes⟩ := decodeBytes_encodesAs b0 b1 b2
  refine ⟨⟨?_, fun hfail => ?_⟩, fun hfail => decodeBytes_failing hfail b1 b2⟩
  · rintro (hstop | ⟨op, hundef⟩)
    · rw [hstop] at hbytes
      obtain ⟨rfl, -⟩ := List.cons.inj hbytes
      exact List.mem_cons_self
    · rw [hundef] at hwf hbytes
      obtain ⟨rfl, -⟩ := List.cons.inj hbytes
      exact List.mem_cons_of_mem _ (List.contains_iff_mem.mp hwf)
  · rw [decodeBytes_failing hfail]
    split
    · exact .inl rfl
    · exact .inr ⟨b0, rfl⟩

end Sys2Proof

namespace Sys2Proof.Machine

/-! ## PREFIX and the instruction stream (R83, R86, R87, R287) -/

/-- R102, R287: PREFIX reads the fields of its second byte as the CB table does. -/
theorem execPrefixCb_eq (op2 : Byte) (s : State) : execPrefixCb op2 s = exec (decodeCb op2) s := by
  unfold execPrefixCb decodeCb
  cases op2 using byte_cases with
  | x0 y z =>
    rw [opX_xyz, opY_xyz, opZ_xyz]
    cases y using field_cases <;> rfl
  | x1 y z | x2 y z | x3 y z => rw [opX_xyz]; rfl

/-- R83: every CB-space byte names an instruction that completes. -/
theorem execPrefixCb_completes (op2 : Byte) (s : State) : ∃ t, execPrefixCb op2 s = .next t := by
  unfold execPrefixCb
  dsimp only
  split
  · split <;> exact ⟨_, rfl⟩
  all_goals exact ⟨_, rfl⟩

/-- Settles O5: PREFIX and the CB table choose by the same fields. -/
theorem prefixRunsTheNamedInstruction : Obligations.PrefixRunsTheNamedInstruction :=
  fun op2 s => ⟨execPrefixCb_eq op2 s, execPrefixCb_completes op2 s⟩

/-- R87: two bytes of the instruction stream, the low one first. -/
theorem State.fetch16_eq (s : State) : s.fetch16 =
    (cat (s.ipeek (s.pc + 1#16)) (s.ipeek s.pc), { s with pc := s.pc + 2#16 }.logs
      [.ifetch s.pc (s.ipeek s.pc), .ifetch (s.pc + 1#16) (s.ipeek (s.pc + 1#16))]) := by
  have hpc : s.pc + 2#16 = s.pc + 1#16 + 1#16 := by bv_omega
  simp only [fetch16, fetch8_eq, hpc, logs, List.append_assoc, List.cons_append, List.nil_append]
  rfl

/-- Settles O27. -/
theorem fetchReadsAtPcAndAdvancesIt : Obligations.FetchReadsAtPcAndAdvancesIt :=
  fun s => ⟨s.fetch8_eq, s.fetch16_eq⟩

end Sys2Proof.Machine

namespace Sys2Proof.Machine

/-! ## DAA (R152) -/

/-- R152: DAA corrects the high digit: C was set, or, after an addition, A is above 0x99. -/
def daaHigh (a : Byte) (n c : Bool) : Bool := c || (!n && decide (a.toNat > 0x99))

/-- R152: DAA corrects the low digit: H was set, or, after an addition, the digit is above 9. -/
def daaLow (a : Byte) (n h : Bool) : Bool := h || (!n && decide ((a &&& 0x0F#8).toNat > 9))

/-- R152: the adjustment for the digits that are corrected. -/
def daaAdjustment (high low : Bool) : Nat := (if high then 0x60 else 0) + (if low then 0x06 else 0)

theorem daaLow_eq (a : Byte) (n h : Bool) : daaLow a n h = (h || (!n && decide (a.toNat % 16 > 9))) := by
  rw [daaLow, low_nibble]

theorem daa8_carry (a : Byte) (n h c : Bool) : (daa8 a n h c).2 = daaHigh a n c := by
  cases n <;> simp [daa8, daaHigh]

/-- R152: the adjustment as a byte. -/
theorem ofNat_daaAdjustment (high low : Bool) : BitVec.ofNat 8 (daaAdjustment high low) =
    (if high then 0x60#8 else 0#8) + (if low then 0x06#8 else 0#8) := by
  cases high <;> cases low <;> rfl

theorem daaAdjustment_lt (high low : Bool) : daaAdjustment high low < 256 := by
  cases high <;> cases low <;> decide

/-- R152: DAA subtracts the adjustment after a subtraction and adds it after an addition. -/
theorem daa8_result (a : Byte) (n h c : Bool) : (daa8 a n h c).1 =
    if n then a - BitVec.ofNat 8 (daaAdjustment (daaHigh a n c) (daaLow a n h))
    else a + BitVec.ofNat 8 (daaAdjustment (daaHigh a n c) (daaLow a n h)) := by
  cases n <;> simp [daa8, ofNat_daaAdjustment, daaHigh, daaLow_eq]

theorem daa8_toNat (a : Byte) (n h c : Bool) : (daa8 a n h c).1.toNat =
    if n then (a.toNat + 256 - daaAdjustment (daaHigh a n c) (daaLow a n h)) % 256
    else (a.toNat + daaAdjustment (daaHigh a n c) (daaLow a n h)) % 256 := by
  have hadj := daaAdjustment_lt (daaHigh a n c) (daaLow a n h)
  rw [daa8_result]
  cases n
  · simp
  · simp only [if_true, BitVec.toNat_sub, BitVec.toNat_ofNat]
    omega

/-! ## Effects of one shape (R28) -/

/-- R28: A and the flags given are written, and nothing else. -/
theorem RegEffect.setA_setFlags (s : State) (v : Byte) (z n h c : Option Bool) :
    RegEffect s ((s.setR8 .a v).setFlags z n h c) [.a] (flagsGiven z n h c) where
  frame := (Frame.setR8 s .a v (by decide)).trans (Frame.setFlags_given _ z n h c)
  ime := rfl
  halted := rfl
  bus := rfl

/-- R28: the flags given are written, and nothing else. -/
theorem RegEffect.setFlags (s : State) (z n h c : Option Bool) :
    RegEffect s (s.setFlags z n h c) [] (flagsGiven z n h c) where
  frame := Frame.setFlags_given s z n h c
  ime := rfl
  halted := rfl
  bus := rfl

/-- R145: a comparison reads its operand, keeps A and writes all four flags. -/
theorem State.compareA_effect (s : State) (x : Src8) (r : AluResult) :
    AluEffect s ((s.logs (s.srcReads x)).setAluFlags r) x s.a r.z r.n r.h r.c where
  result := rfl
  flags := by simp [FlagsAre, State.setAluFlags]
  frame := ((Frame.logs s _).trans (Frame.setFlags_given _ _ _ _ _)).mono (by simp) (fun _ h => h) (by simp)
  control := ⟨rfl, rfl, rfl⟩
  pc := rfl
  bus := rfl

/-- R148 to R151: the operand is replaced, and Z, N and H are written. -/
theorem State.replaceLoc8_effect (s : State) (x : Loc8) (res : Byte) (z n h : Bool) (hwf : s.mem.wf = true) :
    LocEffect s (((s.logs (s.locReads x)).writeLoc8 x res).setFlags (some z) (some n) (some h) none) x res [.z, .n, .h] ∧
    FlagsAre (((s.logs (s.locReads x)).writeLoc8 x res).setFlags (some z) (some n) (some h) none) z n h (s.flag .c) :=
  ⟨(s.writeLoc8_effect x res hwf).setFlags _ _ _ _ _ (by simp) (by simp) (by simp) (by simp), by simp [FlagsAre]⟩

/-! ## ADD, ADC, SUB, SBC, CP (R120, R121) -/

/-- R120: A takes the sum with the carry-in, and the carries go to H and C. -/
theorem State.addToA_effect (s : State) (x : Src8) (cin : Bool) :
    let sum := s.a.toNat + (s.srcValue x).toNat + cin.toNat
    AluEffect s (s.aluToA (fun a v => add8 a v cin) x) x (BitVec.ofNat 8 sum) (decide (sum % 256 = 0)) false
      (decide ((s.a &&& 0x0F#8).toNat + (s.srcValue x &&& 0x0F#8).toNat + cin.toNat > 0xF)) (decide (sum > 0xFF)) := by
  simpa only [add8_eq, low_nibble] using s.aluToA_effect (fun a v => add8 a v cin) x

/-- Settles O29: ADD and ADC differ in the carry-in alone. -/
theorem addAndAdcGiveSumAndCarries : Obligations.AddAndAdcGiveSumAndCarries := by
  intro s x withCarry
  cases withCarry with
  | false => exact ⟨_, rfl, s.addToA_effect x false⟩
  | true => exact ⟨_, rfl, s.addToA_effect x (s.flag .c)⟩

/-- Settles O30: the three differ in the borrow-in and in what A takes. -/
theorem subSbcAndCpGiveDifferenceAndBorrows : Obligations.SubSbcAndCpGiveDifferenceAndBorrows := by
  intro s x
  refine ⟨⟨_, rfl, ?_⟩, ⟨_, rfl, ?_⟩, ⟨_, execCpA_eq x s, ?_⟩⟩
  · simpa only [sub8_false, low_nibble] using s.aluToA_effect (fun a v => sub8 a v false) x
  · simpa only [sub8_eq, low_nibble] using s.aluToA_effect (fun a v => sub8 a v (s.flag .c)) x
  · simpa only [sub8_false, low_nibble] using s.compareA_effect x (sub8 s.a (s.srcValue x) false)

/-! ## AND, XOR, OR (R136 to R144) -/

/-- Settles O31: an exclusive or is 0 for equal operands alone, an or for two zeros alone. -/
theorem andXorOrGiveBitwiseResult : Obligations.AndXorOrGiveBitwiseResult := by
  intro s x
  refine ⟨⟨_, rfl, s.aluToA_effect and8 x⟩, ⟨_, rfl, ?_⟩, ⟨_, rfl, ?_⟩⟩
  · simpa only [xor8, BitVec.xor_eq_zero_iff] using s.aluToA_effect xor8 x
  · simpa only [or8, BitVec.or_eq_zero_iff] using s.aluToA_effect or8 x

/-! ## INC and DEC (R148 to R151) -/

/-- R148: an increment gives 0 from 0xFF alone. -/
theorem add_one_eq_zero_iff (v : Byte) : v + 1#8 = 0#8 ↔ v = 0xFF#8 := by
  constructor <;> intro h <;> bv_omega

/-- R150: a decrement gives 0 from 1 alone. -/
theorem sub_one_eq_zero_iff (v : Byte) : v - 1#8 = 0#8 ↔ v = 0x01#8 := by
  constructor <;> intro h <;> bv_omega

theorem low_nibble_eq_iff (v w : Byte) : v &&& 0x0F#8 = w ↔ v.toNat % 16 = w.toNat := by
  rw [BitVec.toNat_eq, low_nibble]

/-- Settles O32: Z and H read from the operand before the step. -/
theorem inc8AndDec8StepTheOperand : Obligations.Inc8AndDec8StepTheOperand := by
  intro s x hwf
  refine ⟨⟨_, execInc8_eq x s, ?_⟩, ⟨_, execDec8_eq x s, ?_⟩⟩
  · simp only [add_one_eq_zero_iff, low_nibble_eq_iff]
    exact s.replaceLoc8_effect x _ _ _ _ hwf
  · simp only [sub_one_eq_zero_iff, low_nibble_eq_iff]
    exact s.replaceLoc8_effect x _ _ _ _ hwf

/-! ## DAA, CPL, SCF, CCF (R152 to R155) -/

/-- Settles O33: the result and the carry of `daa8` in the rule's terms, and DAA writes A and the flags Z, H and C. -/
theorem daaCorrectsTheAccumulator : Obligations.DaaCorrectsTheAccumulator := by
  intro s
  refine ⟨_, rfl, daa8_toNat _ _ _ _, ⟨?_, ?_, ?_, ?_⟩, RegEffect.setA_setFlags s _ _ _ _ _, rfl, rfl⟩
  · exact State.setFlags_flag_z _ _ _ _ _
  · exact State.setFlags_flag_n _ _ _ _ _
  · exact State.setFlags_flag_h _ _ _ _ _
  · exact (State.setFlags_flag_c _ _ _ _ _).trans (daa8_carry _ _ _ _)

/-- Settles O35: each is a write of the flags it gives, and CPL's result is an exclusive or with ones. -/
theorem cplScfAndCcfWriteTheirFlags : Obligations.CplScfAndCcfWriteTheirFlags := by
  intro s
  refine ⟨⟨_, rfl, ?_, by simp [FlagsAre], RegEffect.setA_setFlags s _ _ _ _ _, rfl, rfl⟩,
    ⟨_, rfl, by simp [FlagsAre], RegEffect.setFlags s _ _ _ _, rfl, rfl⟩,
    ⟨_, rfl, by simp [FlagsAre], RegEffect.setFlags s _ _ _ _, rfl, rfl⟩⟩
  exact BitVec.not_def.trans (BitVec.xor_comm _ _)

/-! ## Packed BCD (R152) -/

/-- The packed-BCD byte of a number below 100. -/
def bcd (x : Nat) : Byte := BitVec.ofNat 8 (x / 10 * 16 + x % 10)

theorem toNat_bcd {x : Nat} (hx : x < 100) : (bcd x).toNat = x / 10 * 16 + x % 10 := by
  rw [bcd, BitVec.toNat_ofNat]
  omega

theorem low_digit_bcd {x : Nat} (hx : x < 100) : (bcd x).toNat % 16 = x % 10 := by
  rw [toNat_bcd hx]
  omega

theorem bcd_lt_bcd {x y : Nat} (hx : x < 100) (hy : y < 100) : (bcd x).toNat < (bcd y).toNat ↔ x < y := by
  rw [toNat_bcd hx, toNat_bcd hy]
  omega

/-- After an addition DAA corrects the high digit when the sum has three digits: with tens that sum to 9 or more, the sum
of the bytes is above 0x99 just when the sum of the units carries or the tens alone reach 10. -/
theorem daaHigh_add_bcd {x y : Nat} (hx : x < 100) (hy : y < 100) :
    daaHigh (bcd x + bcd y) false (decide ((bcd x).toNat + (bcd y).toNat > 0xFF)) =
      decide (x + y ≥ 100) := by
  simp only [daaHigh, BitVec.toNat_add, Bool.not_false, Bool.true_and, ← Bool.decide_or, decide_eq_decide,
    toNat_bcd hx, toNat_bcd hy]
  rcases Nat.lt_or_ge (x / 10 + y / 10) 9 with htens | htens
  · have hsum : x / 10 * 16 + x % 10 + (y / 10 * 16 + y % 10) ≤ 0x92 := by omega
    omega
  · omega

/-- After an addition DAA corrects the low digit when the units carry. -/
theorem daaLow_add_bcd {x y : Nat} (hx : x < 100) (hy : y < 100) :
    daaLow (bcd x + bcd y) false (decide ((bcd x).toNat % 16 + (bcd y).toNat % 16 > 0xF)) =
      decide (x % 10 + y % 10 ≥ 10) := by
  simp only [daaLow_eq, BitVec.toNat_add, Bool.not_false, Bool.true_and, ← Bool.decide_or, decide_eq_decide,
    toNat_bcd hx, toNat_bcd hy]
  omega

/-- A digit that carries loses 10 where its nibble would lose 16: the adjustment adds the missing 6. -/
theorem bcd_add_adjusted {x y : Nat} (hx : x < 100) (hy : y < 100) :
    bcd x + bcd y + BitVec.ofNat 8 (daaAdjustment (decide (x + y ≥ 100)) (decide (x % 10 + y % 10 ≥ 10))) =
      bcd ((x + y) % 100) := by
  simp only [bcd, ← BitVec.ofNat_add, daaAdjustment, decide_eq_true_eq]
  apply BitVec.eq_of_toNat_eq
  simp only [BitVec.toNat_ofNat]
  split <;> split <;> omega

/-- The difference is the number whose sum with the subtrahend gives the minuend back, and it borrows in the digits in
which that sum carries. -/
theorem bcd_sub_adjusted {x y : Nat} (hx : x < 100) (hy : y < 100) :
    bcd x - bcd y - BitVec.ofNat 8 (daaAdjustment (decide (x < y)) (decide (x % 10 < y % 10))) =
      bcd ((x + 100 - y) % 100) := by
  have hsum := bcd_add_adjusted (Nat.mod_lt (x + 100 - y) (by decide : 100 > 0)) hy
  have hminuend : ((x + 100 - y) % 100 + y) % 100 = x := by omega
  have hborrow : (x + 100 - y) % 100 + y ≥ 100 ↔ x < y := by omega
  have hunits : (x + 100 - y) % 100 % 10 + y % 10 ≥ 10 ↔ x % 10 < y % 10 := by omega
  rw [hminuend] at hsum
  simp only [hborrow, hunits] at hsum
  rw [← hsum, BitVec.sub_sub, BitVec.add_assoc, BitVec.add_sub_cancel]

/-- R152: DAA on the result and the flags of a packed-BCD addition. -/
theorem daa8_add8_bcd {x y : Nat} (hx : x < 100) (hy : y < 100) :
    let r := add8 (bcd x) (bcd y) false
    daa8 r.res r.n r.h r.c = (bcd ((x + y) % 100), decide (x + y ≥ 100)) := by
  simp only [add8_eq, Bool.toNat_false, Nat.add_zero, BitVec.ofNat_add, BitVec.ofNat_toNat, BitVec.setWidth_eq]
  refine Prod.ext ?_ ((daa8_carry _ _ _ _).trans (daaHigh_add_bcd hx hy))
  rw [daa8_result, daaHigh_add_bcd hx hy, daaLow_add_bcd hx hy, if_neg (by decide), bcd_add_adjusted hx hy]

/-- R152: DAA on the result and the flags of a packed-BCD subtraction: the digits that borrowed are corrected. -/
theorem daa8_sub8_bcd {x y : Nat} (hx : x < 100) (hy : y < 100) :
    let r := sub8 (bcd x) (bcd y) false
    daa8 r.res r.n r.h r.c = (bcd ((x + 100 - y) % 100), decide (x < y)) := by
  simp only [sub8_false, low_digit_bcd hx, low_digit_bcd hy, bcd_lt_bcd hx hy]
  have hhigh : daaHigh (bcd x - bcd y) true (decide (x < y)) = decide (x < y) := by simp [daaHigh]
  have hlow : daaLow (bcd x - bcd y) true (decide (x % 10 < y % 10)) = decide (x % 10 < y % 10) := by simp [daaLow]
  refine Prod.ext ?_ ((daa8_carry _ _ _ _).trans hhigh)
  rw [daa8_result, hhigh, hlow, if_pos rfl, bcd_sub_adjusted hx hy]

/-- R152: DAA after an operation on A corrects the operation's result by its flags. -/
theorem State.exec_daa_aluToA (s : State) {op : Byte → Byte → AluResult} {x : Src8} {r : AluResult} {res : Byte}
    {carry : Bool} (hr : op s.a (s.srcValue x) = r) (hdaa : daa8 r.res r.n r.h r.c = (res, carry)) :
    ∃ u, exec .daa (s.aluToA op x) = .next u ∧ u.a = res ∧ u.flag .c = carry := by
  obtain ⟨hres, ⟨-, hn, hh, hc⟩, -⟩ := s.aluToA_effect op x
  have hafter : daa8 (s.aluToA op x).a ((s.aluToA op x).flag .n) ((s.aluToA op x).flag .h) ((s.aluToA op x).flag .c) =
      (res, carry) := by rw [hres, hn, hh, hc, hr, hdaa]
  exact ⟨_, rfl, congrArg Prod.fst hafter, (State.setFlags_flag_c _ _ _ _ _).trans (congrArg Prod.snd hafter)⟩

/-- Settles O34: DAA on the result and flags that ADD and SUB leave. -/
theorem daaGivesPackedBcdAfterAddAndSub : Obligations.DaaGivesPackedBcdAfterAddAndSub := by
  intro s x y hx hy ha
  obtain ⟨u, hu⟩ := s.exec_daa_aluToA (op := fun a v => add8 a v false) (x := .imm (bcd y)) (by rw [ha]; rfl)
    (daa8_add8_bcd hx hy)
  obtain ⟨v, hv⟩ := s.exec_daa_aluToA (op := fun a v => sub8 a v false) (x := .imm (bcd y)) (by rw [ha]; rfl)
    (daa8_sub8_bcd hx hy)
  exact ⟨⟨_, u, rfl, hu⟩, ⟨_, v, rfl, hv⟩⟩

end Sys2Proof.Machine

namespace Sys2Proof.Machine

/-! ## 16-bit sums in the rules' terms (R170, R175) -/

/-- The low `k` bits of a word as a number. -/
theorem low_bits (v : Word) {k : Nat} (hk : k ≤ 16) : (v &&& BitVec.ofNat 16 (2 ^ k - 1)).toNat = v.toNat % 2 ^ k := by
  have hmask : 2 ^ k - 1 < 2 ^ 16 :=
    (Nat.sub_lt (Nat.two_pow_pos k) Nat.one_pos).trans_le (Nat.pow_le_pow_right Nat.two_pos hk)
  rw [BitVec.toNat_and, BitVec.toNat_ofNat, Nat.mod_eq_of_lt hmask, Nat.and_two_pow_sub_one_eq_mod]

/-- R170: the number added is the sum of the words, and the carries are those of the low 12 and of all 16 bits. -/
theorem add16_eq (a b : Word) : add16 a b = (a + b,
    decide ((a &&& 0x0FFF#16).toNat + (b &&& 0x0FFF#16).toNat > 0xFFF), decide (a.toNat + b.toNat > 0xFFFF)) := by
  have hlow (v : Word) : (v &&& 0x0FFF#16).toNat = v.toNat % 4096 := low_bits v (k := 12) (by decide)
  simp only [add16, hlow, BitVec.ofNat_add, BitVec.ofNat_toNat, BitVec.setWidth_eq]

/-- R175: a sign extension adds as the signed number it is. -/
theorem add_sext16 (a : Word) (e : Byte) : a + sext16 e = BitVec.ofInt 16 ((a.toNat : Int) + e.toInt) := by
  rw [BitVec.ofInt_add, BitVec.ofInt_natCast, BitVec.ofNat_toNat, BitVec.setWidth_eq]
  rfl

/-- R175: the signed sum, and the carries of the low nibbles and of the low bytes. -/
theorem addsp_eq (a : Word) (e : Byte) : addsp a e = (BitVec.ofInt 16 ((a.toNat : Int) + e.toInt),
    decide ((a &&& 0x000F#16).toNat + (e &&& 0x0F#8).toNat > 0xF),
    decide ((a &&& 0x00FF#16).toNat + e.toNat > 0xFF)) := by
  have hnibble : (a &&& 0x000F#16).toNat = a.toNat % 16 := low_bits a (k := 4) (by decide)
  have hbyte : (a &&& 0x00FF#16).toNat = a.toNat % 256 := low_bits a (k := 8) (by decide)
  rw [addsp, add_sext16, hnibble, hbyte, low_nibble]

/-! ## Writes of a 16-bit register (R24, R28) -/

/-- R91: no `rp` field names AF. -/
theorem pairOf_ne_af (rr : RegPair) : pairOf rr ≠ .af := by cases rr <;> decide

section

variable (s : State) {x : R16} (hx : x ≠ .af)
include hx

/-- R24: a 16-bit register other than AF is written, and nothing else. -/
theorem RegEffect.setR16 (v : Word) : RegEffect s (s.setR16 x v) (pairHalves x) [] where
  frame := Frame.setR16 s x v hx
  ime := s.setR16_ime x v
  halted := s.setR16_halted x v
  bus := s.setR16_bus x v

/-- R24, R28: a 16-bit register other than AF and the flags given are written, and nothing else. -/
theorem RegEffect.setR16_setFlags (v : Word) (z n h c : Option Bool) :
    RegEffect s ((s.setR16 x v).setFlags z n h c) (pairHalves x) (flagsGiven z n h c) where
  frame := ((Frame.setR16 s x v hx).trans (Frame.setFlags_given _ z n h c)).mono (by simp) (fun _ h => h) (by simp)
  ime := s.setR16_ime x v
  halted := s.setR16_halted x v
  bus := s.setR16_bus x v

/-- R24: the register written holds the value written, and every other 16-bit register keeps its own. -/
theorem State.setR16_effect (v : Word) :
    (s.setR16 x v).r16 x = v ∧ (∀ y : R16, y ≠ x → (s.setR16 x v).r16 y = s.r16 y) ∧
    RegEffect s (s.setR16 x v) (pairHalves x) [] :=
  ⟨s.setR16_r16_same x v hx, fun y hy => s.setR16_r16_ne x y v hy, .setR16 s hx v⟩

/-- R24, R28: a 16-bit result with all the flags it gives; a position written `-` is a flag that keeps its value. -/
theorem State.setR16_setFlags_effect (v : Word) (z n h c : Option Bool) :
    ((s.setR16 x v).setFlags z n h c).r16 x = v ∧
    FlagsAre ((s.setR16 x v).setFlags z n h c) (z.getD (s.flag .z)) (n.getD (s.flag .n)) (h.getD (s.flag .h))
      (c.getD (s.flag .c)) ∧
    RegEffect s ((s.setR16 x v).setFlags z n h c) (pairHalves x) (flagsGiven z n h c) :=
  ⟨by simp [hx], by simp [FlagsAre, hx], .setR16_setFlags s hx v z n h c⟩

end

/-! ## ADD HL, INC rr, DEC rr, ADD SP, LD HL,SP+r8 (R170 to R175) -/

/-- Settles O36: HL takes the sum, and Z is the flag not given. -/
theorem addHlGivesSumAndCarries : Obligations.AddHlGivesSumAndCarries := by
  intro s rr a b
  have hadd : exec (.addHl rr) s = .next ((s.setR16 .hl (a + b)).setFlags none (some false)
      (some (decide ((a &&& 0x0FFF#16).toNat + (b &&& 0x0FFF#16).toNat > 0xFFF)))
      (some (decide (a.toNat + b.toNat > 0xFFFF)))) := by
    show execAddHl rr s = _
    rw [execAddHl, add16_eq]
  obtain ⟨hsum, hflags, heffect⟩ := s.setR16_setFlags_effect (x := .hl) (by decide) (a + b) none (some false) _ _
  exact ⟨_, hadd, hsum, hflags, heffect, rfl, rfl⟩

/-- Settles O38: the two differ in the register that takes the sum. -/
theorem addSpAndLdHlSpUseLowByteCarries : Obligations.AddSpAndLdHlSpUseLowByteCarries := by
  intro s e res h c
  have hsum : addsp (s.r16 .sp) e = (res, h, c) := addsp_eq s.sp e
  have haddSp : exec (.addSp e) s =
      .next ((s.setR16 .sp res).setFlags (some false) (some false) (some h) (some c)) := by
    show execAddSp e s = _
    rw [execAddSp, hsum]
  have hldHlSp : exec (.ldHlSp e) s =
      .next ((s.setR16 .hl res).setFlags (some false) (some false) (some h) (some c)) := by
    show execLdHlSp e s = _
    rw [execLdHlSp, hsum]
  obtain ⟨hsp, hspFlags, hspEffect⟩ :=
    s.setR16_setFlags_effect (x := .sp) (by decide) res (some false) (some false) (some h) (some c)
  obtain ⟨hhl, hhlFlags, hhlEffect⟩ :=
    s.setR16_setFlags_effect (x := .hl) (by decide) res (some false) (some false) (some h) (some c)
  exact ⟨⟨_, haddSp, hsp, hspFlags, hspEffect, rfl⟩, ⟨_, hldHlSp, hhl, hhlFlags, hhlEffect, rfl, rfl⟩⟩

/-- Settles O37: both are one write of the register the `rp` field names, which is not AF. -/
theorem inc16AndDec16TouchNoFlag : Obligations.Inc16AndDec16TouchNoFlag :=
  fun s rr => ⟨⟨_, rfl, s.setR16_effect (pairOf_ne_af rr) _⟩, ⟨_, rfl, s.setR16_effect (pairOf_ne_af rr) _⟩⟩

end Sys2Proof.Machine

namespace Sys2Proof.Machine

/-! ## Rotates and shifts in the rules' terms (R180 to R187) -/

theorem getLsbD_bitByte (b : Bool) (i : Nat) : (bitByte b).getLsbD i = (decide (i = 0) && b) := by
  grind [bitByte]

/-- R182: each bit moves one place up, and the bit that enters becomes bit 0. -/
theorem rl8_getLsbD (v : Byte) (b : Bool) {i : Nat} (hi : i < 8) :
    (rl8 v b).1.getLsbD i = if i = 0 then b else v.getLsbD (i - 1) := by
  grind [rl8, getLsbD_bitByte]

/-- R183: each bit moves one place down, and the bit that enters becomes bit 7. -/
theorem rr8_getLsbD (v : Byte) (b : Bool) {i : Nat} (hi : i < 8) :
    (rr8 v b).1.getLsbD i = if i = 7 then b else v.getLsbD (i + 1) := by
  grind [rr8, getLsbD_bitByte]

/-- R180: a byte rotated left in itself takes in its own bit 7. -/
theorem rlc8_eq (v : Byte) : rlc8 v = (v.rotateLeft 1, v.msb) := by
  refine Prod.ext (BitVec.eq_of_getLsbD_eq fun i hi => ?_) rfl
  have hbit : (rlc8 v).1.getLsbD i = _ := rl8_getLsbD v (v.getLsbD 7) hi
  grind

/-- R181: a byte rotated right in itself takes in its own bit 0. -/
theorem rrc8_eq (v : Byte) : rrc8 v = (v.rotateRight 1, v.getLsbD 0) := by
  refine Prod.ext (BitVec.eq_of_getLsbD_eq fun i hi => ?_) rfl
  have hbit : (rrc8 v).1.getLsbD i = _ := rr8_getLsbD v (v.getLsbD 0) hi
  grind

/-- The nine bits that a rotate through the carry works on: the carry stands above bit 7 (R182, R183). -/
theorem getLsbD_ofBool_append (c : Bool) (v : Byte) (i : Nat) :
    (BitVec.ofBool c ++ v).getLsbD i = if i < 8 then v.getLsbD i else decide (i = 8) && c := by
  have hcarry : i - 8 = 0 ↔ i ≤ 8 := Nat.sub_eq_zero_iff_le
  rw [BitVec.getLsbD_append, BitVec.getLsbD_ofBool]
  grind

/-- R182: a rotate left through the carry rotates the carry and the byte as nine bits. -/
theorem rl8_nine_bits (v : Byte) (c : Bool) :
    BitVec.ofBool (rl8 v c).2 ++ (rl8 v c).1 = (BitVec.ofBool c ++ v).rotateLeft 1 := by
  have hout : (rl8 v c).2 = v.getLsbD 7 := rfl
  refine BitVec.eq_of_getLsbD_eq fun i hi => ?_
  rw [BitVec.getLsbD_rotateLeft]
  grind [getLsbD_ofBool_append, rl8_getLsbD]

/-- R183: a rotate right through the carry rotates the carry and the byte as nine bits. -/
theorem rr8_nine_bits (v : Byte) (c : Bool) :
    BitVec.ofBool (rr8 v c).2 ++ (rr8 v c).1 = (BitVec.ofBool c ++ v).rotateRight 1 := by
  have hout : (rr8 v c).2 = v.getLsbD 0 := rfl
  refine BitVec.eq_of_getLsbD_eq fun i hi => ?_
  rw [BitVec.getLsbD_rotateRight]
  grind [getLsbD_ofBool_append, rr8_getLsbD]

/-- R182: the carry enters at bit 0. -/
theorem rl8_eq (v : Byte) (c : Bool) : rl8 v c = ((v <<< 1) ||| (if c then 0x01#8 else 0#8), v.msb) := by
  cases c <;> rfl

/-- R183: the carry enters at bit 7. -/
theorem rr8_eq (v : Byte) (c : Bool) : rr8 v c = ((v >>> 1) ||| (if c then 0x80#8 else 0#8), v.getLsbD 0) := by
  cases c <;> rfl

/-- R184: a shift left doubles. -/
theorem sla8_eq (v : Byte) : sla8 v = (v + v, v.msb) := by
  have hdouble : v <<< 1 = v + v := (BitVec.shiftLeft_eq_mul_twoPow v 1).trans BitVec.mul_two
  exact Prod.ext hdouble rfl

/-- R185: an arithmetic shift right takes in the sign. -/
theorem sra8_eq (v : Byte) : sra8 v = (v.sshiftRight 1, v.getLsbD 0) := by
  have hsign : v &&& 0x80#8 = bitByte v.msb <<< 7 :=
    (BitVec.and_twoPow v 7).trans (by rw [← BitVec.msb_eq_getLsbD_last]; cases v.msb <;> rfl)
  have hshift : sra8 v = rr8 v v.msb := by rw [sra8, hsign, rr8]
  rw [hshift]
  refine Prod.ext (BitVec.eq_of_getLsbD_eq fun i hi => ?_) rfl
  rw [rr8_getLsbD v v.msb hi, BitVec.getLsbD_sshiftRight]
  grind

/-- R186: an exchange of the nibbles is a rotate by four places. -/
theorem swap8_eq (v : Byte) : swap8 v = (v.rotateLeft 4, false) := rfl

/-- R187: a logical shift right halves. -/
theorem srl8_eq (v : Byte) : srl8 v = (BitVec.ofNat 8 (v.toNat / 2), v.getLsbD 0) := by
  refine Prod.ext (BitVec.eq_of_toNat_eq ?_) rfl
  simp only [srl8, BitVec.toNat_ushiftRight, BitVec.toNat_ofNat, Nat.shiftRight_eq_div_pow]
  omega

/-! ## Results that are 0 (R194 to R209) -/

/-- A rotate loses no bit, so only 0 rotates to 0. -/
theorem rotateLeft_eq_zero_iff {w r : Nat} (hr : r < w) (v : BitVec w) : v.rotateLeft r = 0#w ↔ v = 0#w := by
  rw [BitVec.rotateLeft_eq_rotateLeftAux_of_lt hr, BitVec.rotateLeftAux, BitVec.or_eq_zero_iff]
  refine ⟨fun ⟨hleft, hright⟩ => BitVec.eq_of_getLsbD_eq fun i hi => ?_, by rintro rfl; simp⟩
  have hlow := congrArg (·.getLsbD (i + r)) hleft
  have hhigh := congrArg (·.getLsbD (i - (w - r))) hright
  grind

/-- One place to the right is seven to the left. -/
theorem rotateRight_one_eq_zero_iff (v : Byte) : v.rotateRight 1 = 0#8 ↔ v = 0#8 := by
  have hseven : v.rotateRight 1 = v.rotateLeft 7 := BitVec.or_comm _ _
  rw [hseven]
  exact rotateLeft_eq_zero_iff (by decide) v

theorem ofNat_half_eq_zero_iff (v : Byte) : BitVec.ofNat 8 (v.toNat / 2) = 0#8 ↔ v.toNat < 2 := by
  rw [BitVec.toNat_eq]
  simp only [BitVec.toNat_ofNat]
  omega

/-! ## Rotates and shifts (R190 to R209) -/

/-- Settles O39: RLCA and RRCA rotate A in itself, RLA and RRA the carry and A as nine bits. -/
theorem accumulatorRotatesClearZ : Obligations.AccumulatorRotatesClearZ := by
  intro s
  refine ⟨⟨_, rfl, ?_⟩, ⟨_, rfl, ?_⟩, ⟨_, rfl, ?_⟩, ⟨_, rfl, ?_⟩⟩
  · simpa only [rlc8_eq] using s.rotateA_effect rlc8
  · simpa only [rrc8_eq] using s.rotateA_effect rrc8
  · obtain ⟨ha, ⟨hz, hn, hh, hc⟩, heffect⟩ := s.rotateA_effect (fun v => rl8 v (s.flag .c))
    refine ⟨?_, ⟨hz, hn, hh, hc⟩, heffect⟩
    rw [ha, hc]
    exact rl8_nine_bits s.a (s.flag .c)
  · obtain ⟨ha, ⟨hz, hn, hh, hc⟩, heffect⟩ := s.rotateA_effect (fun v => rr8 v (s.flag .c))
    refine ⟨?_, ⟨hz, hn, hh, hc⟩, heffect⟩
    rw [ha, hc]
    exact rr8_nine_bits s.a (s.flag .c)

/-- Settles O40: each is a rotate of its operand, and a byte rotated in itself is 0 when it was 0 before. -/
theorem cbRotatesGiveResultAndCarry : Obligations.CbRotatesGiveResultAndCarry := by
  intro s x hwf v left right
  refine ⟨⟨_, rfl, ?_⟩, ⟨_, rfl, ?_⟩, ⟨_, rfl, ?_⟩, ⟨_, rfl, ?_⟩⟩
  · simpa only [rlc8_eq, rotateLeft_eq_zero_iff (show 1 < 8 by decide)] using s.rotateLoc_effect rlc8 x hwf
  · simpa only [rrc8_eq, rotateRight_one_eq_zero_iff] using s.rotateLoc_effect rrc8 x hwf
  · simpa only [rl8_eq] using s.rotateLoc_effect (fun v => rl8 v (s.flag .c)) x hwf
  · simpa only [rr8_eq] using s.rotateLoc_effect (fun v => rr8 v (s.flag .c)) x hwf

/-- Settles O41: each is a rotate or shift of its operand, whose result is that of the rule. -/
theorem cbShiftsGiveResultAndCarry : Obligations.CbShiftsGiveResultAndCarry := by
  intro s x hwf v
  refine ⟨⟨_, rfl, ?_⟩, ⟨_, rfl, ?_⟩, ⟨_, rfl, ?_⟩, ⟨_, rfl, ?_⟩⟩
  · simpa only [sla8_eq] using s.rotateLoc_effect sla8 x hwf
  · simpa only [sra8_eq] using s.rotateLoc_effect sra8 x hwf
  · simpa only [swap8_eq, rotateLeft_eq_zero_iff (show 4 < 8 by decide)] using s.rotateLoc_effect swap8 x hwf
  · simpa only [srl8_eq, ofNat_half_eq_zero_iff] using s.rotateLoc_effect srl8 x hwf

/-! ## BIT, RES, SET (R210 to R215) -/

/-- Bit `k` of a byte is 0 when the quotient by `2 ^ k` is even (R210). -/
theorem not_getLsbD_eq_decide (v : Byte) (k : Nat) : (!v.getLsbD k) = decide (v.toNat / 2 ^ k % 2 = 0) := by
  rw [BitVec.getLsbD, Nat.testBit_eq_decide_div_mod_eq]
  rcases Nat.mod_two_eq_zero_or_one (v.toNat / 2 ^ k) with h | h <;> simp [h]

/-- R212: the mask has the one bit it names. -/
theorem getLsbD_bitMask (b : BitVec 3) {k : Nat} (hk : k < 8) : (bitMask b).getLsbD k = decide (k = b.toNat) := by
  rw [bitMask, ← BitVec.twoPow_eq, BitVec.getLsbD_twoPow]
  grind

/-- Settles O42: BIT reads its operand and writes Z, N and H. -/
theorem bitTestsAndWritesNothing : Obligations.BitTestsAndWritesNothing := by
  intro s b x
  refine ⟨_, execBit_eq b x s, ?_, ?_, ⟨rfl, rfl, rfl⟩, rfl, rfl⟩
  · simp [FlagsAre, not_getLsbD_eq_decide]
  · exact (Frame.logs s _).trans (Frame.setFlags_given _ _ _ _ _)

/-- Settles O43: both replace the operand, RES by a byte without the bit of the mask and SET by a byte with it. -/
theorem resAndSetChangeOneBit : Obligations.ResAndSetChangeOneBit := by
  intro s b x hwf
  refine ⟨⟨_, _, execRes_eq b x s, s.writeLoc8_effect x _ hwf, fun k hk => ?_⟩,
    ⟨_, _, execSetBit_eq b x s, s.writeLoc8_effect x _ hwf, fun k hk => ?_⟩⟩
  · rw [BitVec.getLsbD_and, BitVec.getLsbD_not, getLsbD_bitMask b hk]
    simp [hk]
  · rw [BitVec.getLsbD_or, getLsbD_bitMask b hk]

/-! ## A quiet bus leaves data memory (R54) -/

/-- R60: a primitive operation takes nothing off the bus. -/
theorem StateOp.bus_prefix {s t : State} (op : StateOp s t) : s.bus <+: t.bus := by
  cases op <;> simp

/-- R54: a primitive operation that makes no access is no write. -/
theorem StateOp.mem_of_bus {s t : State} (op : StateOp s t) (hbus : t.bus = s.bus) : t.mem = s.mem := by
  cases op with
  | write addr v => simp at hbus
  | setR8 | setR16 | read | ifetch | setIme | halt => simp

/-- R60: nor does any sequence of primitive operations. -/
theorem StateOps.bus_prefix {s t : State} (ops : StateOps s t) : s.bus <+: t.bus := by
  induction ops with
  | refl => exact List.prefix_refl _
  | tail _ op ih => exact ih.trans op.bus_prefix

/-- R54: primitive operations that make no access leave data memory. -/
theorem StateOps.mem_of_bus {s t : State} (ops : StateOps s t) (hbus : t.bus = s.bus) : t.mem = s.mem := by
  induction ops with
  | refl => rfl
  | @tail t u ops op ih =>
    have hquiet : t.bus = s.bus := (hbus ▸ op.bus_prefix).eq_of_length_le (StateOps.bus_prefix ops).length_le
    exact (op.mem_of_bus (hbus.trans hquiet.symm)).trans (ih hquiet)

/-! ## The operand of a CB-space instruction (R90, R102, R188) -/

/-- R95: every rotate or shift of CB space is a rotate of its operand. -/
theorem exec_rotOf (y : BitVec 3) (x : Loc8) (s : State) : ∃ op, exec (rotOf y x) s = .next (s.rotateLoc op x) := by
  cases y using field_cases <;> exact ⟨_, rfl⟩

/-- R102, R188: BIT reads the operand that the field z names; every other CB-space instruction replaces it. -/
theorem exec_decodeCb_effect (op2 : Byte) (s : State) (hwf : s.mem.wf = true) :
    ∃ t, exec (decodeCb op2) s = .next t ∧
      if opX op2 = 1#2 then Frame s t [] [.z, .n, .h] [] ∧ t.bus = s.bus ++ s.locReads (loc8Of (opZ op2))
      else ∃ res flags, LocEffect s t (loc8Of (opZ op2)) res flags := by
  unfold decodeCb
  cases op2 using byte_cases with
  | x0 y z =>
    obtain ⟨op, hexec⟩ := exec_rotOf y (loc8Of z) s
    simp only [opX_xyz, opY_xyz, opZ_xyz]
    exact ⟨_, hexec, _, _, (s.rotateLoc_effect op _ hwf).1⟩
  | x1 y z =>
    obtain ⟨t, hexec, -, hframe, -, -, hbus⟩ := bitTestsAndWritesNothing s y (loc8Of z)
    simp only [opX_xyz, opY_xyz, opZ_xyz]
    exact ⟨t, hexec, hframe, hbus⟩
  | x2 y z =>
    obtain ⟨⟨t, res, hexec, heffect, -⟩, -⟩ := resAndSetChangeOneBit s y (loc8Of z) hwf
    simp only [opX_xyz, opY_xyz, opZ_xyz]
    exact ⟨t, hexec, res, [], heffect⟩
  | x3 y z =>
    obtain ⟨-, ⟨t, res, hexec, heffect, -⟩⟩ := resAndSetChangeOneBit s y (loc8Of z) hwf
    simp only [opX_xyz, opY_xyz, opZ_xyz]
    exact ⟨t, hexec, res, [], heffect⟩

section

variable {s t : State} {res : Byte} {flags : List Flag}

/-- R188: an effect on a register makes no data access and leaves every other register but F. -/
theorem LocEffect.of_reg {r : Reg8} (h : LocEffect s t (.reg r) res flags) :
    t.bus = s.bus ∧ ∀ y : R8, y ≠ .f → y ≠ regOf r → t.r8 y = s.r8 y :=
  ⟨by simpa [State.locReads, State.locWrites] using h.bus,
    fun y hf hy => h.frame.regs y hf (by simpa [locRegs] using hy)⟩

/-- R188: an effect on `(HL)` leaves every register but F. -/
theorem LocEffect.regs_indHl (h : LocEffect s t .indHl res flags) (y : R8) (hf : y ≠ .f) : t.r8 y = s.r8 y :=
  h.frame.regs y hf List.not_mem_nil

/-- R188: an effect on `(HL)` is one read at HL and then one write, at the same address, of the byte it leaves there. -/
theorem LocEffect.bus_indHl (h : LocEffect s t .indHl res flags) :
    t.bus = s.bus ++ [.read (s.r16 .hl) (s.peek (s.r16 .hl))] ++ [.write (s.r16 .hl) (t.peek (s.r16 .hl))] := by
  have hhl : t.r16 .hl = s.r16 .hl := by simp [State.r16, h.regs_indHl]
  have hres : t.peek (s.r16 .hl) = res := hhl ▸ h.result
  rw [hres]
  exact h.bus

end

/-- Settles O44, by the two kinds of operand; that a register operand leaves data memory follows from the quiet bus. -/
theorem cbOperandIsRegisterOrByteAtHl : Obligations.CbOperandIsRegisterOrByteAtHl := by
  intro op2 s hwf
  obtain ⟨t, hexec, heffect⟩ := exec_decodeCb_effect op2 s hwf
  refine ⟨t, hexec, fun r hr => ?_, fun hz => ?_⟩
  · have hquiet : t.bus = s.bus ∧ ∀ y : R8, y ≠ .f → y ≠ regOf r → t.r8 y = s.r8 y := by
      rw [hr] at heffect
      split at heffect
      next =>
        obtain ⟨hframe, hbus⟩ := heffect
        exact ⟨by simpa [State.locReads] using hbus, fun y hf _ => hframe.regs y hf List.not_mem_nil⟩
      next =>
        obtain ⟨res, flags, heffect⟩ := heffect
        exact heffect.of_reg
    obtain ⟨hbus, hregs⟩ := hquiet
    exact ⟨hbus, (exec_stateOps hexec).mem_of_bus hbus, hregs⟩
  · have hoperand : loc8Of (opZ op2) = .indHl := by rw [hz]; rfl
    rw [hoperand] at heffect
    split at heffect
    next hbit =>
      obtain ⟨hframe, hbus⟩ := heffect
      exact ⟨fun y hf => hframe.regs y hf List.not_mem_nil, by simpa [hbit, State.locReads] using hbus⟩
    next hbit =>
      obtain ⟨res, flags, heffect⟩ := heffect
      exact ⟨heffect.regs_indHl, by simpa [hbit] using heffect.bus_indHl⟩

end Sys2Proof.Machine

namespace Sys2Proof.Machine

/-! ## The step of an encoded instruction (R281) -/

/-- R281: fetching from an encoding passes the bytes of the instruction, reads them, and leaves the meaning to `exec`. -/
theorem step_of_encode {i : Instr} {s : State} (hrun : s.halted = false) (hwf : i.wellFormed = true)
    (hbytes : s.fetchesBytes s.pc (encode i)) :
    step s =
      exec i (s.withPcBus (s.pc + BitVec.ofNat 16 (encode i).length) (s.fetches (encode i).length s.pc)) := by
  rw [step_running s hrun, State.fetchInstr_encode hwf (State.beginStep_fetchesBytes hbytes), State.beginStep_fetches]
  rfl

/-- R29: no condition code looks at PC or at the bus. -/
@[simp] theorem State.withPcBus_cond (s : State) (pc : Word) (bus : List BusAccess) (cc : Cond) :
    (s.withPcBus pc bus).cond cc = s.cond cc := by
  cases cc <;> rfl

/-! ## Calls, returns and relative jumps (R224 to R233) -/

namespace State

variable (s : State) (target : Word)

@[simp] theorem callTo_sp : (s.callTo target).sp = s.sp - 2#16 := rfl
@[simp] theorem callTo_pc : (s.callTo target).pc = target := rfl
@[simp] theorem callTo_ime : (s.callTo target).ime = s.ime := rfl
@[simp] theorem callTo_halted : (s.callTo target).halted = s.halted := rfl
@[simp] theorem callTo_r8 (x : R8) : (s.callTo target).r8 x = s.r8 x :=
  (setR16_r8_pc _ target x).trans (s.push16_r8 _ x)

/-- R270: PC's low byte is written at the new SP, then its high byte at the next address. -/
@[simp] theorem callTo_bus : (s.callTo target).bus =
    s.bus ++ [.write (s.sp - 2#16) (loByte s.pc), .write (s.sp - 1#16) (hiByte s.pc)] := by
  rw [← sp_sub_two]
  exact s.push16_bus s.pc

/-- R226: a call is a push and a write of PC. -/
theorem callTo_frame : Frame s (s.callTo target) [] [] [s.sp - 2#16, s.sp - 1#16] :=
  (Frame.push16 s s.pc).trans (Frame.setR16 _ .pc target (by decide))

/-- R270, R271: the word a push leaves at the new SP is the word pushed. -/
theorem push16_top (v : Word) (hwf : s.mem.wf = true) :
    cat ((s.push16 v).peek (s.sp - 2#16 + 1#16)) ((s.push16 v).peek (s.sp - 2#16)) = v := by
  rw [sp_sub_two, s.push16_peek_high v hwf, s.push16_peek_low v hwf, cat_bytes]

/-- R228: a return leaves every 8-bit register. -/
theorem returnFromStack_r8 (x : R8) : s.returnFromStack.r8 x = s.r8 x := by
  rw [returnFromStack_eq]
  cases x <;> rfl

/-- R224: a relative jump adds the signed displacement. -/
theorem jumpRel_eq (e : Byte) : s.jumpRel e = { s with pc := BitVec.ofInt 16 ((s.pc.toNat : Int) + e.toInt) } :=
  congrArg (s.setR16 .pc) (add_sext16 s.pc e)

end State

/-- R233: eight times the field of RST, as a byte and as an address. -/
theorem rst_target (y : BitVec 3) : zext16 (BitVec.ofNat 8 (8 * y.toNat)) = BitVec.ofNat 16 (8 * y.toNat) := by
  have hbyte : 8 * y.toNat < 256 := by omega
  apply BitVec.eq_of_toNat_eq
  simp [zext16, Nat.mod_eq_of_lt hbyte]

/-! ## Transfers by a condition (R220, R222, R225, R227, R229) -/

/-- R220: a conditional transfer is an instruction of CORE, and one whose condition is false has nothing left to do. -/
theorem conditionalTransfer_exec {cc : Cond} {a16 : Word} {e : Byte} {i : Instr}
    (hi : i ∈ [Instr.jpCc cc a16, .jrCc cc e, .callCc cc a16, .retCc cc]) :
    i.wellFormed = true ∧ ∀ s : State, ∃ taken, exec i s = .next (if s.cond cc then taken else s) := by
  simp only [List.mem_cons, List.not_mem_nil, or_false] at hi
  rcases hi with rfl | rfl | rfl | rfl <;> exact ⟨rfl, fun _ => ⟨_, rfl⟩⟩

/-! ## Control flow (R220 to R233) -/

/-- Settles O47: fetching the encoding changes PC and the bus alone, and neither is part of a condition. -/
theorem notTakenTransferOnlyPassesItsBytes : Obligations.NotTakenTransferOnlyPassesItsBytes := by
  intro s cc a16 e i hi hrun hbytes hcond
  obtain ⟨hwf, hexec⟩ := conditionalTransfer_exec hi
  obtain ⟨taken, htransfer⟩ := hexec (s.withPcBus (s.pc + BitVec.ofNat 16 (encode i).length)
    (s.fetches (encode i).length s.pc))
  rw [step_of_encode hrun hwf hbytes, htransfer, State.withPcBus_cond, hcond]
  rfl

/-- Settles O48: CALL and RST are calls of their targets. -/
theorem callAndRstPushTheReturnAddress : Obligations.CallAndRstPushTheReturnAddress := by
  intro s a16 y i target hwf hi
  have hexec : exec i s = .next (s.callTo target) := by
    rcases hi with ⟨rfl, rfl⟩ | ⟨rfl, rfl⟩
    · rfl
    · exact congrArg (fun addr => Host.Outcome.next (s.callTo addr)) (rst_target y)
  exact ⟨_, hexec, s.callTo_pc target, s.callTo_sp target, s.push16_peek_low s.pc hwf, s.push16_peek_high s.pc hwf,
    s.callTo_frame target, s.callTo_ime target, s.callTo_halted target, s.callTo_bus target⟩

/-- Settles O50: RET pops the word that CALL pushed. -/
theorem retAfterCallComesBack : Obligations.RetAfterCallComesBack := by
  intro s t a16 hwf hcall
  obtain rfl : s.callTo a16 = t := by injection hcall
  refine ⟨(s.callTo a16).returnFromStack, rfl, s.push16_top s.pc hwf, ?_, fun r => ?_⟩
  · exact BitVec.sub_add_cancel s.sp 2#16
  · rw [State.returnFromStack_r8, State.callTo_r8]

/-- Settles O45: each is one write of PC. -/
theorem jumpsChangeOnlyPc : Obligations.JumpsChangeOnlyPc :=
  fun s _ e => ⟨rfl, rfl, congrArg Host.Outcome.next (s.jumpRel_eq e)⟩

/-- Settles O46: each does its unconditional form's work on the branch of its condition. -/
theorem conditionalTransfersFollowTheirCondition : Obligations.ConditionalTransfersFollowTheirCondition := by
  intro s cc a16 e
  refine ⟨rfl, ?_, ⟨_, rfl, by split <;> rfl⟩, ⟨_, rfl, by split <;> rfl⟩⟩
  rw [← s.jumpRel_eq e]
  rfl

/-- Settles O49: both return from the stack, and RETI then sets IME. -/
theorem retAndRetiPopPc : Obligations.RetAndRetiPopPc := by
  intro s i hi
  rcases hi with rfl | rfl
  · exact congrArg Host.Outcome.next s.returnFromStack_eq
  · exact congrArg (fun t : State => Host.Outcome.next { t with ime := true }) s.returnFromStack_eq

end Sys2Proof.Machine

namespace Sys2Proof.Machine

/-! ## Push and pop (R240, R268 to R271) -/

namespace State

variable (s : State) (v : Word)

/-- R270: the low byte is written at the new SP, then the high byte at the old SP less 1. -/
theorem push16_bus_below_sp : (s.push16 v).bus =
    s.bus ++ [.write (s.sp - 2#16) (loByte v), .write (s.sp - 1#16) (hiByte v)] := by
  rw [← sp_sub_two]
  exact s.push16_bus v

/-- R271: the low byte is read at SP, then the high byte at the next address. -/
theorem pop16_bus : s.pop16.2.bus =
    s.bus ++ [.read s.sp (s.peek s.sp), .read (s.sp + 1#16) (s.peek (s.sp + 1#16))] := by
  rw [pop16_eq]
  rfl

/-- R271: a pop moves SP and no other register. -/
theorem pop16_r16_ne {x : R16} (hx : x ≠ .sp) : s.pop16.2.r16 x = s.r16 x := by
  cases x with
  | sp => exact absurd rfl hx
  | af | bc | de | hl | pc => rfl

/-- R270: a push moves SP and no other register. -/
theorem push16_r16_ne {x : R16} (hx : x ≠ .sp) : (s.push16 v).r16 x = s.r16 x := by
  cases x with
  | sp => exact absurd rfl hx
  | af | bc | de | hl | pc => rfl

/-- R270, R271: a pop after a push gives the word pushed. -/
theorem pop16_push16_word (hwf : s.mem.wf = true) : (s.push16 v).pop16.1 = v := by
  rw [pop16_eq]
  exact s.push16_top v hwf

/-- R270, R271: a pop after a push leaves every 16-bit register, SP among them. -/
theorem pop16_push16_r16 (x : R16) : (s.push16 v).pop16.2.r16 x = s.r16 x := by
  by_cases hx : x = .sp
  · subst hx
    exact BitVec.sub_add_cancel s.sp 2#16
  · rw [pop16_r16_ne _ hx, push16_r16_ne _ _ hx]

/-- R26, R27: a flag that a write of AF writes is its bit of the word. -/
theorem setR16_af_flag (x : Flag) : (s.setR16 .af v).flag x = v.getLsbD x.bit := by
  have hlow : (s.setR16 .af v).r8 .f = loByte v &&& fMask := setR8_r8_f _ _
  rw [flag, hlow]
  cases x <;> simp [loByte, fMask, Flag.bit]

/-- R26: AF reads without bits 3..0. -/
theorem r16_af_mask : s.r16 .af &&& 0xFFF0#16 = s.r16 .af := by
  have hf : s.r8 .f &&& fMask = s.r8 .f := mask_of_low _ s.r8_f_low
  rw [← cat_hiByte_mask]
  simp only [r16, hiByte_cat, loByte_cat, hf]

/-- R24, R26: writing a 16-bit register with what it holds leaves every 16-bit register. -/
theorem setR16_self_r16 (x y : R16) : (s.setR16 x (s.r16 x)).r16 y = s.r16 y := by
  by_cases hy : y = x
  · subst hy
    by_cases haf : y = .af
    · subst haf
      rw [setR16_r16_af, r16_af_mask]
    · exact s.setR16_r16_same y _ haf
  · exact s.setR16_r16_ne x y _ hy

/-- R26, R92: the register of an `rp2` field holds the word written, AF without bits 3..0. -/
theorem setStackPair_r16 (qq : StackPair) : (s.setR16 (stackPairReg qq) v).r16 (stackPairReg qq) =
    if qq = .af then v &&& 0xFFF0#16 else v := by
  cases qq with
  | bc | de | hl => exact s.setR16_r16_same _ v (by decide)
  | af => exact s.setR16_r16_af v

end State

theorem stackPairReg_ne_sp (qq : StackPair) : stackPairReg qq ≠ .sp := by cases qq <;> decide

theorem stackPairReg_ne_pc (qq : StackPair) : stackPairReg qq ≠ .pc := by cases qq <;> decide

/-- R271: a pop writes no general register, no flag and no byte. -/
theorem Frame.pop16 (s : State) : Frame s s.pop16.2 [] [] [] := by
  rw [s.pop16_eq]
  exact (Frame.setR16 s .sp _ (by decide)).trans (Frame.logs _ _)

/-- R92: a write of the register of an `rp2` field writes flags for AF alone. -/
theorem Frame.setStackPair (s : State) (qq : StackPair) (v : Word) : Frame s (s.setR16 (stackPairReg qq) v)
    (pairHalves (stackPairReg qq)) (if qq = .af then [.z, .n, .h, .c] else []) [] := by
  cases qq with
  | bc | de | hl => exact .setR16 s _ v (by decide)
  | af => exact .setAf s v

/-- R269: POP pops a word and writes it to its register. -/
theorem exec_pop (qq : StackPair) (s : State) :
    exec (.pop qq) s = .next (s.pop16.2.setR16 (stackPairReg qq) s.pop16.1) := rfl

/-- Settles O56: PUSH is a push of the register. -/
theorem pushStoresTheRegister : Obligations.PushStoresTheRegister :=
  fun s _ hwf => ⟨_, rfl, s.push16_sp _, s.push16_peek_low _ hwf, s.push16_peek_high _ hwf, .push16 s _, rfl, rfl, rfl,
    s.push16_bus_below_sp _⟩

/-- Settles O57: a pop moves SP and makes the reads, the write of the register does the rest. -/
theorem popLoadsTheRegister : Obligations.PopLoadsTheRegister := by
  intro s qq w
  have hw : s.pop16.1 = w := congrArg Prod.fst s.pop16_eq
  refine ⟨_, exec_pop qq s, ?_, ?_, ?_, ?_, ?_, State.setR16_ime _ _ _, State.setR16_halted _ _ _, ?_⟩
  · exact State.setR16_sp_ne _ _ _ (stackPairReg_ne_sp qq)
  · rw [State.setStackPair_r16, hw]
  · rintro rfl
    rw [hw]
    exact ⟨State.setR16_af_flag _ w .z, State.setR16_af_flag _ w .n, State.setR16_af_flag _ w .h,
      State.setR16_af_flag _ w .c⟩
  · exact (Frame.pop16 s).trans (Frame.setStackPair _ qq _)
  · exact State.setR16_pc_ne _ _ _ (stackPairReg_ne_pc qq)
  · rw [State.setR16_bus, State.pop16_bus]

/-- Settles O58: the pop gives back the word and SP, so POP writes its register with what it still holds. -/
theorem popAfterPushRestores : Obligations.PopAfterPushRestores := by
  intro s t qq hwf hpush
  have ht : s.push16 (s.r16 (stackPairReg qq)) = t := by injection hpush
  have hword : t.pop16.1 = s.r16 (stackPairReg qq) := ht ▸ s.pop16_push16_word _ hwf
  have hpop (r : R16) : t.pop16.2.r16 r = s.r16 r := ht ▸ s.pop16_push16_r16 _ r
  have hregs (r : R16) : (t.pop16.2.setR16 (stackPairReg qq) t.pop16.1).r16 r = s.r16 r := by
    rw [hword, ← hpop (stackPairReg qq), State.setR16_self_r16, hpop r]
  exact ⟨_, exec_pop qq t, hregs .sp, hregs⟩

end Sys2Proof.Machine

namespace Sys2Proof.Machine

/-! ## Register loads (R241, R242, R260, R262) -/

/-- R22: a register other than F is written, and nothing else. -/
theorem RegEffect.setR8 (s : State) {x : R8} (hx : x ≠ .f) (v : Byte) : RegEffect s (s.setR8 x v) [x] [] where
  frame := Frame.setR8 s x v hx
  ime := s.setR8_ime x v
  halted := s.setR8_halted x v
  bus := s.setR8_bus x v

/-- R241, R242: the register of an operand field takes a byte, and nothing else changes. -/
theorem State.setReg8_effect (s : State) (r : Reg8) (v : Byte) :
    (s.setR8 (regOf r) v).r8 (regOf r) = v ∧ RegEffect s (s.setR8 (regOf r) v) [regOf r] [] ∧
    (s.setR8 (regOf r) v).sp = s.sp ∧ (s.setR8 (regOf r) v).pc = s.pc :=
  ⟨s.setR8_r8_same _ v (State.regOf_ne_f r), .setR8 s (State.regOf_ne_f r) v, s.setR8_sp _ v, s.setR8_pc _ v⟩

theorem pairOf_ne_pc (rr : RegPair) : pairOf rr ≠ .pc := by cases rr <;> decide

theorem pairOf_ne_sp {rr : RegPair} (h : rr ≠ .sp) : pairOf rr ≠ .sp := by
  cases rr with
  | bc | de | hl => decide
  | sp => exact absurd rfl h

/-- Settles O51: each is one write of the destination, which is neither F nor AF. -/
theorem registerLoadsCopyTheirSource : Obligations.RegisterLoadsCopyTheirSource := by
  intro s dst src d8 rr d16
  refine ⟨⟨_, rfl, s.setReg8_effect dst _⟩, ⟨_, rfl, s.setReg8_effect dst d8⟩, ⟨_, rfl, ?_⟩, ⟨_, rfl, rfl, ?_, rfl⟩⟩
  · exact ⟨s.setR16_r16_same _ d16 (pairOf_ne_af rr), .setR16 s (pairOf_ne_af rr) d16,
      fun h => s.setR16_sp_ne _ d16 (pairOf_ne_sp h), s.setR16_pc_ne _ d16 (pairOf_ne_pc rr)⟩
  · exact .setR16 s (x := .sp) (by decide) _

/-! ## Byte loads and stores (R243 to R255) -/

/-- R88: the address `0xFF00 + offset` has 0xFF for its high byte. -/
theorem highPage_eq (offset : Byte) : highPage offset = 0xFF#8 ++ offset := by
  revert offset
  decide

namespace State

variable (s : State)

/-- R243: a load takes the byte at its address, reads it once, and changes nothing else. -/
theorem loadR8_effect {x : R8} (hx : x ≠ .f) (addr : Word) :
    (s.loadR8 x addr).r8 x = s.peek addr ∧ Frame s (s.loadR8 x addr) [x] [] [] ∧ SameControl s (s.loadR8 x addr) ∧
    (s.loadR8 x addr).pc = s.pc ∧ (s.loadR8 x addr).bus = s.bus ++ [.read addr (s.peek addr)] := by
  rw [s.loadR8_eq]
  refine ⟨setR8_r8_same _ x _ hx, (Frame.logs s _).trans (Frame.setR8 _ x _ hx), ⟨?_, ?_, ?_⟩, ?_, ?_⟩
  · exact setR8_sp _ x _
  · exact setR8_ime _ x _
  · exact setR8_halted _ x _
  · exact setR8_pc _ x _
  · exact setR8_bus _ x _

/-- R244: a store writes the byte at its address, once, and changes nothing else. -/
theorem memWrite8_effect (addr : Word) (v : Byte) (hwf : s.mem.wf = true) :
    (s.memWrite8 addr v).peek addr = v ∧ Frame s (s.memWrite8 addr v) [] [] [addr] ∧
    SameControl s (s.memWrite8 addr v) ∧ (s.memWrite8 addr v).pc = s.pc ∧
    (s.memWrite8 addr v).bus = s.bus ++ [.write addr v] :=
  ⟨s.memWrite8_peek_same addr v hwf, .memWrite8 s addr v, ⟨rfl, rfl, rfl⟩, rfl, rfl⟩

end State

/-- Settles O52: each is a load of its register from its address. -/
theorem memoryLoadsReadOneByte : Obligations.MemoryLoadsReadOneByte := by
  intro s r a16 a8 i dst addr hi
  have hload : dst ≠ .f ∧ exec i s = .next (s.loadR8 dst addr) := by
    simp only [List.mem_cons, Prod.mk.injEq, List.not_mem_nil, or_false, ← highPage_eq] at hi
    rcases hi with ⟨rfl, rfl, rfl⟩ | ⟨rfl, rfl, rfl⟩ | ⟨rfl, rfl, rfl⟩ | ⟨rfl, rfl, rfl⟩ | ⟨rfl, rfl, rfl⟩ |
      ⟨rfl, rfl, rfl⟩
    · exact ⟨State.regOf_ne_f r, rfl⟩
    all_goals exact ⟨by decide, rfl⟩
  obtain ⟨hdst, hexec⟩ := hload
  exact ⟨_, hexec, s.loadR8_effect hdst addr⟩

/-- Settles O53: each is a byte write of its source at its address. -/
theorem memoryStoresWriteOneByte : Obligations.MemoryStoresWriteOneByte := by
  intro s r d8 a16 a8 i addr v hwf hi
  have hstore : exec i s = .next (s.memWrite8 addr v) := by
    simp only [List.mem_cons, Prod.mk.injEq, List.not_mem_nil, or_false, ← highPage_eq] at hi
    rcases hi with ⟨rfl, rfl, rfl⟩ | ⟨rfl, rfl, rfl⟩ | ⟨rfl, rfl, rfl⟩ | ⟨rfl, rfl, rfl⟩ | ⟨rfl, rfl, rfl⟩ |
      ⟨rfl, rfl, rfl⟩ | ⟨rfl, rfl, rfl⟩ <;> rfl
  exact ⟨_, hstore, s.memWrite8_effect addr v hwf⟩

/-! ## Loads that move HL, and the store of SP (R256 to R259, R261) -/

/-- Settles O54: a store or a load at HL, and then a write of HL. -/
theorem postStepLoadsMoveHl : Obligations.PostStepLoadsMoveHl := by
  intro s up hwf hl moved
  have hstore : exec (if up then .ldHliA else .ldHldA) s = .next ((s.memWrite8 hl s.a).setR16 .hl moved) := by
    cases up <;> rfl
  have hload : exec (if up then .ldAHli else .ldAHld) s = .next ((s.loadR8 .a hl).setR16 .hl moved) := by
    cases up <;> rfl
  obtain ⟨hbyte, hstoreFrame, hstoreRest⟩ := s.memWrite8_effect hl s.a hwf
  obtain ⟨ha, hloadFrame, hloadRest⟩ := s.loadR8_effect (x := .a) (by decide) hl
  refine ⟨⟨_, hstore, hbyte, ?_, ?_, hstoreRest⟩, ⟨_, hload, ha, ?_, ?_, hloadRest⟩⟩
  · exact State.setR16_r16_same _ .hl moved (by decide)
  · exact hstoreFrame.trans (Frame.setR16 _ .hl moved (by decide))
  · exact State.setR16_r16_same _ .hl moved (by decide)
  · exact hloadFrame.trans (Frame.setR16 _ .hl moved (by decide))

/-- Settles O55: LD (a16),SP is a word write of SP. -/
theorem storeSpWritesItsTwoBytes : Obligations.StoreSpWritesItsTwoBytes :=
  fun s a16 hwf => ⟨_, rfl, s.memWrite16_peek_low a16 s.sp hwf, s.memWrite16_peek_high a16 s.sp hwf,
    .memWrite16 s a16 s.sp, ⟨rfl, rfl, rfl⟩, rfl, s.memWrite16_bus a16 s.sp⟩

end Sys2Proof.Machine

namespace Sys2Proof.Machine

/-! ## The step and the system instructions (R280 to R288) -/

/-- Settles O6: `withPcBus` is the record update of the statement. -/
theorem stepRunsTheEncodedInstruction : Obligations.StepRunsTheEncodedInstruction :=
  fun _ _ hrun hwf hbytes => step_of_encode hrun hwf hbytes

/-- Settles O7: a halted step only clears the bus. -/
theorem stepOfHaltedCoreDoesNothing : Obligations.StepOfHaltedCoreDoesNothing := step_halted

/-- Settles O59: each of the four is the meaning its rule gives it. -/
theorem systemInstructionsChangeOneBit : Obligations.SystemInstructionsChangeOneBit := by
  intro s
  have hnop : exec .nop s = execNop s := rfl
  have hdi : exec .di s = execDi s := rfl
  have hei : exec .ei s = execEi s := rfl
  have hhalt : exec .halt s = execHalt s := rfl
  exact ⟨hnop, hdi, hei, hhalt⟩

/-- Settles O60: both raise their byte whatever the state; that the byte is one of the eleven is not needed. -/
theorem undefinedOpcodesRaiseUnknownOpcode : Obligations.UndefinedOpcodesRaiseUnknownOpcode := by
  intro s
  have hstop : exec .stop s = raiseUnknownOpcode 0x10#8 := rfl
  have hundefined (op : Byte) : exec (.undefined op) s = raiseUnknownOpcode op := rfl
  exact ⟨hstop, fun op _ => hundefined op⟩

end Sys2Proof.Machine

namespace Sys2Proof.Machine

/-! ## Which steps complete (R7, R301, R303) -/

/-- R7: STOP and the undefined bytes aside, every instruction completes, whatever the state. -/
theorem exec_completes {i : Instr} (hstop : i ≠ .stop) (hundefined : ∀ op, i ≠ .undefined op) (s : State) :
    ∃ t, exec i s = .next t := by
  cases i with
  | stop => exact absurd rfl hstop
  | undefined op => exact absurd rfl (hundefined op)
  | prefixCb op2 => exact execPrefixCb_completes op2 s
  | _ => exact ⟨_, rfl⟩

/-- R281: the byte at PC is the first byte of the instruction that a step fetches. -/
theorem State.fetchInstr_decodes (s : State) :
    ∃ b1 b2, s.beginStep.fetchInstr.1 = decodeBytes (s.ipeek s.pc) b1 b2 :=
  ⟨_, _, congrArg Prod.fst s.beginStep.fetchInstr_eq⟩

/-- R303: a running core whose byte at PC is not one of the twelve completes its step. The instruction it fetches is
neither STOP nor an undefined byte, since only the twelve bytes decode to these. -/
theorem step_completes {s : State} (hrun : s.halted = false) (hok : s.ipeek s.pc ∉ failingBytes) :
    ∃ t, step s = .next t := by
  obtain ⟨b1, b2, hinstr⟩ := s.fetchInstr_decodes
  obtain ⟨hfails, -⟩ := exactlyTwelveFirstBytesFailToDecode (s.ipeek s.pc) b1 b2
  rw [step_running s hrun, hinstr]
  exact exec_completes (fun hstop => hok (hfails.mp (.inl hstop)))
    (fun op hundefined => hok (hfails.mp (.inr ⟨op, hundefined⟩))) _

/-- Settles O9: a running core fails on the twelve bytes and completes on the others; a halted one completes. -/
theorem stepFaultsExactlyOnFailingBytes : Obligations.StepFaultsExactlyOnFailingBytes := by
  refine fun s => ⟨fun ⟨hrun, hfail⟩ => step_failing hrun hfail, fun hcompletes => ?_⟩
  cases hhalted : s.halted with
  | true => exact ⟨_, step_halted s hhalted⟩
  | false => exact step_completes hhalted (hcompletes.resolve_left (by simp [hhalted]))

end Sys2Proof.Machine

namespace Sys2Proof.Machine

/-! ## Words written out (R98 to R103) -/

/-- A word that is the encoding of a well-formed instruction decodes to it, with nothing left over. -/
theorem decode_eq_of_encode_eq {i : Instr} {word : List Byte} (hwf : i.wellFormed = true) (hword : encode i = word) :
    decode word = .ok (i, []) := by
  simpa [hword] using decode_encode_append i hwf []

/-- Settles O4: each of the fourteen words is the encoding of its instruction, and a word that encodes a well-formed
instruction decodes to it. -/
theorem writtenOutWordsDecode : Obligations.WrittenOutWordsDecode := by
  refine ⟨?_, ?_, ?_, ?_, ?_, ?_, ?_, ?_, ?_, ?_, ?_, ?_, ?_, ?_⟩ <;> exact decode_eq_of_encode_eq rfl rfl

end Sys2Proof.Machine
